-- ==== Sys2Proof/Word.lean ====
section
/-! DEFINITION. The widths of the machine's values (spec/00_scope.md R6): every value is unsigned. -/

namespace Sys2Proof

/-- 8 bits (R6): a memory byte, a general register, a timer. -/
abbrev Byte := BitVec 8

/-- 16 bits (R6): an instruction word, `PC`, `I`, a stack entry. -/
abbrev Word := BitVec 16

/-- 4 bits (R6): the fields `op`, `x`, `y`, `n`. -/
abbrev Nibble := BitVec 4

/-- 12 bits: the field `nnn` (R61). -/
abbrev Addr12 := BitVec 12

end Sys2Proof
end

