-- ==== Sys2Proof/Config.lean ====
section
/-! DEFINITION. The constants the document fixes (spec/00_scope.md R4), the configuration a run takes as
arguments (R5), the default font (spec/70_reset_and_hazards.md R233) and the free host inputs. -/

namespace Sys2Proof.Config

/-- `MEM_SIZE` (R4). -/
@[simp] abbrev memSize : Nat := 4096

/-- `ADDR_WIDTH` (R4): the bits of an address that a register or a field can hold. -/
@[simp] abbrev addrWidth : Nat := 16

/-- `NUM_V` (R4). -/
@[simp] abbrev numV : Nat := 16

/-- `V_WIDTH` (R4). -/
@[simp] abbrev vWidth : Nat := 8

/-- `I_WIDTH` (R4). -/
@[simp] abbrev iWidth : Nat := 16

/-- `PC_WIDTH` (R4). -/
@[simp] abbrev pcWidth : Nat := 16

/-- `STACK_ENTRY_WIDTH` (R4). -/
@[simp] abbrev stackEntryWidth : Nat := 16

/-- `STACK_DEPTH` (R4, spec decision D17; log 18): `none` is "unbounded". -/
abbrev stackDepth : Option Nat := none

/-- `TIMER_WIDTH` (R4). -/
@[simp] abbrev timerWidth : Nat := 8

/-- `NUM_KEYS` (R4). -/
@[simp] abbrev numKeys : Nat := 16

/-- `FB_W` (R4). -/
@[simp] abbrev fbW : Nat := 64

/-- `FB_H` (R4). -/
@[simp] abbrev fbH : Nat := 32

/-- `NO_BLOCK` (R4; spec/10_state.md R26): the code of `BLOCKED` when no key-block is pending. -/
abbrev noBlock : BitVec 5 := 0x10

/-- `FONT_BASE` (R4). -/
@[simp] abbrev fontBase : Nat := 0

/-- `FONT_LEN` (R4). -/
@[simp] abbrev fontLen : Nat := 80

/-- `GLYPH_BYTES` (R4). -/
abbrev glyphBytes : Word := 5

/-- `INSTR_BYTES` (R4). -/
abbrev instrBytes : Word := 2

/-- `START_ADDR` (R4): the reset value of `PC` and the default load offset. -/
abbrev startAddr : Word := 0x200

/-- `KEY_OOR = NOT_HELD` (R5, spec decision D9; log 13): what a key index of 16 to 255 reads as. -/
abbrev keyOutOfRangeHeld : Bool := false

/-- `SHIFT_SRC` (R5): the register that `SHR` and `SHL` shift. -/
inductive ShiftSrc where
  | x
  | y
  deriving DecidableEq, Repr

/-- `JUMP_REG` (R5): the register that `JP_OFF` adds. -/
inductive JumpReg where
  | vx
  | v0
  deriving DecidableEq, Repr

/-- The configuration fixed for a run (R5). `tickInterval` is `TICK_INTERVAL` counted in the quanta in
which `TIME` is measured (R91; log 7): 1/60 second is `tickInterval` quanta. -/
structure Settings where
  shiftSrc : ShiftSrc
  jumpReg : JumpReg
  loadStoreInc : Bool
  tickInterval : Nat
  deriving DecidableEq, Repr

/-- The defaults of R5 (spec decision D11; log 6). DESIGN CHOICE, unsafe (log 7): the quantum is
1/60000000 second, so that every whole number of microseconds is a whole number of quanta. -/
def defaultSettings : Settings where
  shiftSrc := .x
  jumpReg := .vx
  loadStoreInc := false
  tickInterval := 1000000

/-- Glyphs 0 to 7 of the default font (R233). PRESUMED, unsafe (log 9). -/
def fontLow : List Byte :=
  [0xF0, 0x90, 0x90, 0x90, 0xF0] ++ [0x20, 0x60, 0x20, 0x20, 0x70] ++
  [0xF0, 0x10, 0xF0, 0x80, 0xF0] ++ [0xF0, 0x10, 0xF0, 0x10, 0xF0] ++
  [0x90, 0x90, 0xF0, 0x10, 0x10] ++ [0xF0, 0x80, 0xF0, 0x10, 0xF0] ++
  [0xF0, 0x80, 0xF0, 0x90, 0xF0] ++ [0xF0, 0x10, 0x20, 0x40, 0x40]

/-- Glyphs 8 to F of the default font (R233). PRESUMED, unsafe (log 9). -/
def fontHigh : List Byte :=
  [0xF0, 0x90, 0xF0, 0x90, 0xF0] ++ [0xF0, 0x90, 0xF0, 0x10, 0xF0] ++
  [0xF0, 0x90, 0xF0, 0x90, 0x90] ++ [0xE0, 0x90, 0xE0, 0x90, 0xE0] ++
  [0xF0, 0x80, 0x80, 0x80, 0xF0] ++ [0xE0, 0x90, 0x90, 0x90, 0xE0] ++
  [0xF0, 0x80, 0xF0, 0x80, 0xF0] ++ [0xF0, 0x80, 0xF0, 0x80, 0x80]

/-- `FONT`'s default (R5, R233): 16 glyphs of 5 bytes. -/
def defaultFont : List Byte := fontLow ++ fontHigh

/-- Free value (log 3): the 16 key states the host supplies with the step that draw `n` belongs to
(spec/40_cycle_engine.md R97: the host "may change them freely between steps"). -/
opaque hostKeys : Nat → Vector Bool 16

/-- Free value (log 3): the random byte the host supplies with that step, under no law (R82). -/
opaque hostRand : Nat → BitVec 8

/-- Free value (log 3): the time, in quanta, that passes before that step (R80, R97). -/
opaque hostElapsed : Nat → Nat

end Sys2Proof.Config
end

