-- ==== Sys2Proof/Decode.lean ====
section
/-! DEFINITION. The decoder (spec/30_encoding.md R61, R64, R65, R67), the encoder written from the same
rules, and the opcode map of R65 as a table of masks and matches. -/

namespace Sys2Proof

/-! ## Fields (R61) -/

/-- `op`, bits 15:12. -/
def opOf (w : Word) : Nibble := w.extractLsb' 12 4

/-- `x`, bits 11:8. -/
def xOf (w : Word) : Nibble := w.extractLsb' 8 4

/-- `y`, bits 7:4. -/
def yOf (w : Word) : Nibble := w.extractLsb' 4 4

/-- `n`, bits 3:0. -/
def nOf (w : Word) : Nibble := w.extractLsb' 0 4

/-- `nn`, bits 7:0. -/
def nnOf (w : Word) : Byte := w.extractLsb' 0 8

/-- `nnn`, bits 11:0. -/
def nnnOf (w : Word) : Addr12 := w.extractLsb' 0 12

/-! ## Decoding -/

/-- The second level under `op = 0`: keyed on `nn`; the `x` nibble is not examined
(R64, spec decision D16; log 10). -/
def decodeOp0 (w : Word) : Instr :=
  if nnOf w = 0xE0#8 then .cls
  else if nnOf w = 0xEE#8 then .ret
  else .unknown w

/-- The second level under `op = 8`: keyed on `n` (R64). -/
def decodeOp8 (w : Word) : Instr :=
  if nOf w = 0x0#4 then .ldReg (xOf w) (yOf w)
  else if nOf w = 0x1#4 then .orReg (xOf w) (yOf w)
  else if nOf w = 0x2#4 then .andReg (xOf w) (yOf w)
  else if nOf w = 0x3#4 then .xorReg (xOf w) (yOf w)
  else if nOf w = 0x4#4 then .addReg (xOf w) (yOf w)
  else if nOf w = 0x5#4 then .sub (xOf w) (yOf w)
  else if nOf w = 0x6#4 then .shr (xOf w) (yOf w)
  else if nOf w = 0x7#4 then .subn (xOf w) (yOf w)
  else if nOf w = 0xE#4 then .shl (xOf w) (yOf w)
  else .unknown w

/-- The second level under `op = 0xE`: keyed on `nn` (R64). -/
def decodeOpE (w : Word) : Instr :=
  if nnOf w = 0x9E#8 then .skp (xOf w)
  else if nnOf w = 0xA1#8 then .sknp (xOf w)
  else .unknown w

/-- The second level under `op = 0xF`: keyed on `nn` (R64). -/
def decodeOpF (w : Word) : Instr :=
  if nnOf w = 0x07#8 then .ldVxDt (xOf w)
  else if nnOf w = 0x0A#8 then .ldVxK (xOf w)
  else if nnOf w = 0x15#8 then .ldDt (xOf w)
  else if nnOf w = 0x18#8 then .ldSt (xOf w)
  else if nnOf w = 0x1E#8 then .addI (xOf w)
  else if nnOf w = 0x29#8 then .ldF (xOf w)
  else if nnOf w = 0x33#8 then .ldB (xOf w)
  else if nnOf w = 0x55#8 then .stRegs (xOf w)
  else if nnOf w = 0x65#8 then .ldRegs (xOf w)
  else .unknown w

/-- Dispatch by `op` (R64, R65): total and pure (R61). Under 5 and 9 the `n` nibble is not examined
(R64, spec decision D16; log 10). -/
def decodeWord (w : Word) : Instr :=
  if opOf w = 0x0#4 then decodeOp0 w
  else if opOf w = 0x1#4 then .jp (nnnOf w)
  else if opOf w = 0x2#4 then .call (nnnOf w)
  else if opOf w = 0x3#4 then .se (xOf w) (nnOf w)
  else if opOf w = 0x4#4 then .sne (xOf w) (nnOf w)
  else if opOf w = 0x5#4 then .seReg (xOf w) (yOf w)
  else if opOf w = 0x6#4 then .ldImm (xOf w) (nnOf w)
  else if opOf w = 0x7#4 then .addImm (xOf w) (nnOf w)
  else if opOf w = 0x8#4 then decodeOp8 w
  else if opOf w = 0x9#4 then .sneReg (xOf w) (yOf w)
  else if opOf w = 0xA#4 then .ldI (nnnOf w)
  else if opOf w = 0xB#4 then .jpOff (nnnOf w)
  else if opOf w = 0xC#4 then .rnd (xOf w) (nnOf w)
  else if opOf w = 0xD#4 then .drw (xOf w) (yOf w) (nOf w)
  else if opOf w = 0xE#4 then decodeOpE w
  else decodeOpF w

/-- Why a list of bytes holds no instruction. -/
inductive DecodeError where
  /-- Fewer than the two bytes every instruction has (R60). Safe: `step` fetches two bytes or faults. -/
  | truncated
  deriving DecidableEq, Repr

/-- The word of two bytes, the first at the lower address (spec/20_memory.md R44): `{hi, lo}`. -/
def wordOfBytes (hi lo : Byte) : Word := BitVec.ofNat 16 (hi.toNat * 256 + lo.toNat)

/-- Bits 15:8 of a word: the byte at the lower address. -/
def hiByte (w : Word) : Byte := w.extractLsb' 8 8

/-- Bits 7:0 of a word: the byte at the higher address. -/
def loByte (w : Word) : Byte := w.extractLsb' 0 8

/-- The instruction at the head of a list of bytes, with the rest of the list. Total: every pair of
bytes decodes to some instruction (R61). -/
def decode : List Byte → Except DecodeError (Instr × List Byte)
  | hi :: lo :: rest => .ok (decodeWord (wordOfBytes hi lo), rest)
  | [] => .error .truncated
  | [_] => .error .truncated

/-- The host's word of an opcode-table row: `nbits` bits of `w`, every bit above them 0, laid out as the
hardware stores it (high byte first) and decoded. -/
def decodeTableWord (nbits w : Nat) : Option Instr :=
  let word : Word := BitVec.ofNat 16 (w % 2 ^ nbits)
  match decode [hiByte word, loByte word] with
  | .ok (i, _) => some i
  | .error _ => none

/-! ## Encoding -/

/-- `w = op*4096 + nnn` with `nnn = x*256 + y*16 + n` (R62). -/
def packXYN (op x y n : Nibble) : Word :=
  BitVec.ofNat 16 (op.toNat * 4096 + (x.toNat * 256 + y.toNat * 16 + n.toNat))

/-- The same with `nn` for `y` and `n` (R62). -/
def packXNN (op x : Nibble) (nn : Byte) : Word :=
  BitVec.ofNat 16 (op.toNat * 4096 + (x.toNat * 256 + nn.toNat))

/-- The same with `nnn` whole (R62). -/
def packNNN (op : Nibble) (nnn : Addr12) : Word :=
  BitVec.ofNat 16 (op.toNat * 4096 + nnn.toNat)

/-- The word of an instruction (R65). A nibble that is not examined is written 0, as R66's listings do
(log 10). -/
def encode : Instr → Word
  | .cls => packXNN 0x0 0 0xE0
  | .ret => packXNN 0x0 0 0xEE
  | .jp nnn => packNNN 0x1 nnn
  | .call nnn => packNNN 0x2 nnn
  | .se x nn => packXNN 0x3 x nn
  | .sne x nn => packXNN 0x4 x nn
  | .seReg x y => packXYN 0x5 x y 0
  | .ldImm x nn => packXNN 0x6 x nn
  | .addImm x nn => packXNN 0x7 x nn
  | .ldReg x y => packXYN 0x8 x y 0x0
  | .orReg x y => packXYN 0x8 x y 0x1
  | .andReg x y => packXYN 0x8 x y 0x2
  | .xorReg x y => packXYN 0x8 x y 0x3
  | .addReg x y => packXYN 0x8 x y 0x4
  | .sub x y => packXYN 0x8 x y 0x5
  | .shr x y => packXYN 0x8 x y 0x6
  | .subn x y => packXYN 0x8 x y 0x7
  | .shl x y => packXYN 0x8 x y 0xE
  | .sneReg x y => packXYN 0x9 x y 0
  | .ldI nnn => packNNN 0xA nnn
  | .jpOff nnn => packNNN 0xB nnn
  | .rnd x nn => packXNN 0xC x nn
  | .drw x y n => packXYN 0xD x y n
  | .skp x => packXNN 0xE x 0x9E
  | .sknp x => packXNN 0xE x 0xA1
  | .ldVxDt x => packXNN 0xF x 0x07
  | .ldVxK x => packXNN 0xF x 0x0A
  | .ldDt x => packXNN 0xF x 0x15
  | .ldSt x => packXNN 0xF x 0x18
  | .addI x => packXNN 0xF x 0x1E
  | .ldF x => packXNN 0xF x 0x29
  | .ldB x => packXNN 0xF x 0x33
  | .stRegs x => packXNN 0xF x 0x55
  | .ldRegs x => packXNN 0xF x 0x65
  | .unknown w => w

/-- The two bytes of an instruction, high byte first (R60). -/
def encodeBytes (i : Instr) : List Byte := [hiByte (encode i), loByte (encode i)]

/-! ## The opcode map (R65) -/

/-- One row of R65: the word `w` is this instruction exactly when `w AND mask = value`. -/
structure OpcodeRow where
  mnemonic : String
  mask : Word
  value : Word
  deriving DecidableEq, Repr

/-- Whether a word belongs to a row. -/
def OpcodeRow.matches (r : OpcodeRow) (w : Word) : Bool := w &&& r.mask == r.value

/-- Rows 1 to 9 and 19 to 23 of R65: keyed on `op` alone, or on `op` and `nn` under 0. -/
def opcodeRowsOp : List OpcodeRow :=
  [⟨"CLS", 0xF0FF, 0x00E0⟩, ⟨"RET", 0xF0FF, 0x00EE⟩, ⟨"JP", 0xF000, 0x1000⟩,
   ⟨"CALL", 0xF000, 0x2000⟩, ⟨"SE", 0xF000, 0x3000⟩, ⟨"SNE", 0xF000, 0x4000⟩,
   ⟨"SE_REG", 0xF000, 0x5000⟩, ⟨"LD_IMM", 0xF000, 0x6000⟩, ⟨"ADD_IMM", 0xF000, 0x7000⟩] ++
  [⟨"SNE_REG", 0xF000, 0x9000⟩, ⟨"LD_I", 0xF000, 0xA000⟩, ⟨"JP_OFF", 0xF000, 0xB000⟩,
   ⟨"RND", 0xF000, 0xC000⟩, ⟨"DRW", 0xF000, 0xD000⟩]

/-- Rows 10 to 18 of R65: `op = 8`, keyed on `n`. -/
def opcodeRows8 : List OpcodeRow :=
  [⟨"LD_REG", 0xF00F, 0x8000⟩, ⟨"OR", 0xF00F, 0x8001⟩, ⟨"AND", 0xF00F, 0x8002⟩,
   ⟨"XOR", 0xF00F, 0x8003⟩, ⟨"ADD_REG", 0xF00F, 0x8004⟩, ⟨"SUB", 0xF00F, 0x8005⟩,
   ⟨"SHR", 0xF00F, 0x8006⟩, ⟨"SUBN", 0xF00F, 0x8007⟩, ⟨"SHL", 0xF00F, 0x800E⟩]

/-- Rows 24 to 34 of R65: `op = 0xE` and `0xF`, keyed on `nn`. -/
def opcodeRowsEF : List OpcodeRow :=
  [⟨"SKP", 0xF0FF, 0xE09E⟩, ⟨"SKNP", 0xF0FF, 0xE0A1⟩, ⟨"LD_VX_DT", 0xF0FF, 0xF007⟩,
   ⟨"LD_VX_K", 0xF0FF, 0xF00A⟩, ⟨"LD_DT", 0xF0FF, 0xF015⟩, ⟨"LD_ST", 0xF0FF, 0xF018⟩,
   ⟨"ADD_I", 0xF0FF, 0xF01E⟩, ⟨"LD_F", 0xF0FF, 0xF029⟩, ⟨"LD_B", 0xF0FF, 0xF033⟩,
   ⟨"ST_REGS", 0xF0FF, 0xF055⟩, ⟨"LD_REGS", 0xF0FF, 0xF065⟩]

/-- The 34 rows of R65. -/
def opcodeMap : List OpcodeRow := opcodeRowsOp ++ opcodeRows8 ++ opcodeRowsEF

end Sys2Proof
end

