-- ==== Sys2Proof/Machine/State.lean ====
section
/-! DEFINITION. The state of the block (spec/10_state.md R10) as plain data, the host's transactions
(spec/40_cycle_engine.md R81), and the state after reset (R31). -/

namespace Sys2Proof.Machine

open Sys2Proof

/-- `FAULT` (R27): the latch a fatal condition sets. It is state, not an outcome: once it is not `none`,
`step` and `tick` change nothing until `reset` (spec/60_exceptions.md R203; log 1). -/
inductive FaultLatch where
  | none
  | stackUnderflow
  | outOfBounds
  deriving DecidableEq, Repr

/-- The soft condition's report `UnknownOpcode(word, addr)` (R95, spec/60_exceptions.md R204). -/
structure UnknownOpcode where
  word : Word
  addr : Word
  deriving DecidableEq, Repr

/-- The results of one step (R95): the `display_dirty` hint, `diag`, and the address a raised
`OutOfBounds` records (spec/60_exceptions.md R200). Results, not state of the block (R28; log 5). -/
structure StepResult where
  displayDirty : Bool
  diag : Option UnknownOpcode
  info : Option Nat
  deriving DecidableEq, Repr

/-- The result of a step that reports nothing. -/
def StepResult.quiet : StepResult := ⟨false, .none, .none⟩

/-- What the host can do to the block (R80, R81): the three transactions with their arguments. Elapsed
time is in the quanta of `cfg.tickInterval` (R91; log 7). -/
inductive Transaction where
  | step (keys : Vector Bool Config.numKeys) (rand : Byte)
  | tick (elapsed : Nat)
  | reset (font program : List Byte) (loadOffset : BitVec Config.addrWidth) (cfg : Config.Settings)
  deriving DecidableEq, Repr

/-- Memory: the bytes that differ from the reset contents, by rising address. -/
abbrev Memory := List Host.Cell

/-- The framebuffer: `FB_H` rows of `FB_W` cells (R23). -/
abbrev Framebuffer := Vector (Vector Bool Config.fbW) Config.fbH

/-- The twelve items of R10, then the model's own fields: the run's configuration (R5; log 6), the draw
of the current step (R82; log 4), the latest results (log 5), and the host's coming transactions with
the counter of the free host (log 2, 3). -/
structure State where
  /-- `MEM` (R22). -/
  mem : Memory
  /-- `V[0]` to `V[15]` (R11). -/
  v : Vector (BitVec Config.vWidth) Config.numV
  /-- `I` (R17). -/
  i : BitVec Config.iWidth
  /-- `PC` (R14). -/
  pc : BitVec Config.pcWidth
  /-- `STACK`, the top first (R18, R19): a list, because `STACK_DEPTH` is unbounded (`Config.stackDepth`). -/
  stack : List (BitVec Config.stackEntryWidth)
  /-- `DT` (R20). -/
  dt : BitVec Config.timerWidth
  /-- `ST` (R20). -/
  st : BitVec Config.timerWidth
  /-- `ACC` (R21), in quanta. -/
  acc : Nat
  /-- `FB` (R23), indexed by row and then column. -/
  fb : Framebuffer
  /-- `KEYS` (R25). -/
  keys : Vector Bool Config.numKeys
  /-- `BLOCKED` (R26): `none` is `NO_BLOCK`. -/
  blocked : Option Nibble
  /-- `FAULT` (R27). -/
  fault : FaultLatch
  /-- The configuration (R5), set by `reset` alone. -/
  cfg : Config.Settings
  /-- The random byte supplied with the current step (R82). -/
  rand : Byte
  /-- The results of the latest step (R95). -/
  out : StepResult
  /-- The host's coming transactions, the first to come first; when empty the host is free. -/
  pending : List Transaction
  /-- How many steps of the free host have been taken: selects its free values. -/
  draws : Nat
  deriving DecidableEq, Repr

/-- Reasons for the machine to stop with a fault: NONE. Both fatal conditions of the spec have an entry it
describes (spec/60_exceptions.md R203), so they are next states with `fault` latched (log 1); no
meaning and no step answers with a fault. -/
inductive Fault
  deriving DecidableEq, Repr

/-- Reasons for a refusal. -/
inductive Refusal where
  /-- An instruction that has no meaning yet; raised by no arm of `exec`. Safe. -/
  | notModelled (mnemonic : String)
  /-- A `reset` transaction whose image does not fit (spec/70_reset_and_hazards.md R232: the reset "is
  refused and yields no machine at all"); raised by `step` on such a pending transaction. Safe. -/
  | imageDoesNotFit
  /-- A `reset` transaction whose `TICK_INTERVAL` is not positive (spec/40_cycle_engine.md R91); raised by
  `step` on such a pending transaction. Safe. -/
  | tickIntervalNotPositive
  deriving DecidableEq, Repr

/-- What a step or a meaning answers. -/
abbrev Result := Host.Outcome State Fault Refusal

/-- The state after reset (R31, R230) with the default font, no program and the default configuration.
Memory lists nothing: its reset contents are what an unlisted address reads as. `PC` is `START_ADDR`;
the other values are the spec's decision D12 (log 8), and those of the model's own fields are DESIGN
CHOICES, unsafe (log 2 to 7). -/
def State.reset : State where
  mem := []
  v := Vector.replicate Config.numV 0
  i := 0
  pc := Config.startAddr
  stack := []
  dt := 0
  st := 0
  acc := 0
  fb := Vector.replicate Config.fbH (Vector.replicate Config.fbW false)
  keys := Vector.replicate Config.numKeys false
  blocked := none
  fault := .none
  cfg := Config.defaultSettings
  rand := 0
  out := .quiet
  pending := []
  draws := 0

end Sys2Proof.Machine
end

