-- ==== Sys2Proof/Machine/Ops.lean ====
section
/-! DEFINITION. The named operations over memory, registers, the stack and the key latch, and the one
operation that takes a fatal condition (spec/60_exceptions.md R203). -/

namespace Sys2Proof.Machine

open Sys2Proof

/-! ## Memory (spec/20_memory.md) -/

/-- What an address that is not listed reads as: the reset contents of R31 with the default font, that is
the font at `FONT_BASE` and 0 elsewhere (R49; log 9). -/
def Memory.unlisted (a : Nat) : Byte := Config.defaultFont.getD a 0

/-- The byte at an address below `memSize`; callers check the bound first. -/
def Memory.get : Memory → Nat → Byte
  | [], a => Memory.unlisted a
  | (k, b) :: m, a => if k = a then b else Memory.get m a

/-- Unlist an address. -/
def Memory.erase (m : Memory) (a : Nat) : Memory := m.filter fun c => c.1 != a

/-- List a byte at an address that is not listed, before the first higher address. -/
def Memory.insert : Memory → Nat → Byte → Memory
  | [], a, b => [(a, b)]
  | (k, c) :: m, a, b => if a < k then (a, b) :: (k, c) :: m else (k, c) :: Memory.insert m a b

/-- Store one byte, keeping the canonical form; callers check the bound first. -/
def Memory.set (m : Memory) (a : Nat) (b : Byte) : Memory :=
  if b = Memory.unlisted a then m.erase a else (m.erase a).insert a b

/-- Entries rise strictly from `lo`, lie below `memSize` and differ from the unlisted contents. -/
def Memory.wfFrom : Nat → Memory → Bool
  | _, [] => true
  | lo, (k, b) :: m =>
    decide (lo ≤ k) && decide (k < Config.memSize) && (b != Memory.unlisted k) && Memory.wfFrom (k + 1) m

/-- The canonical form: equal memories are equal lists. -/
def Memory.wf (m : Memory) : Bool := Memory.wfFrom 0 m

/-- The bounds check of R42 and R43 over the `len` bytes from `a` (R41: `a + k` is not reduced): the first
address out of bounds in ascending order, if there is one (R44, spec/46_memory_transfer.md R183). -/
def Memory.firstOutside (a len : Nat) : Option Nat :=
  if len = 0 ∨ a + len ≤ Config.memSize then none else some (max a Config.memSize)

/-- `MemRead(addr, 1)` (R42): nothing where it raises `OutOfBounds`. -/
def Memory.read (m : Memory) (a : Nat) : Option Byte :=
  match Memory.firstOutside a 1 with
  | none => some (m.get a)
  | some _ => none

/-- Store bytes at consecutive addresses, in ascending order. -/
def Memory.store (m : Memory) (a : Nat) : List Byte → Memory
  | [] => m
  | b :: bs => Memory.store (m.set a b) (a + 1) bs

/-- The bytes at `len` consecutive addresses. -/
def Memory.slice (m : Memory) (a : Nat) : Nat → List Byte
  | 0 => []
  | len + 1 => m.get a :: Memory.slice m (a + 1) len

/-! ## Registers (spec/10_state.md R11 to R17) -/

/-- `V[x]`. -/
def State.getV (s : State) (x : Nibble) : Byte := s.v[x.toNat]'x.isLt

/-- `V[x] <- b` (R13: no other register changes). -/
def State.setV (s : State) (x : Nibble) (b : Byte) : State := { s with v := s.v.set x.toNat b x.isLt }

/-- The flag register `VF` (R12). -/
abbrev flagReg : Nibble := 0xF

/-- `V[0xF] <- 1` or `0` (R12, R16). -/
def State.setFlag (s : State) (f : Bool) : State := s.setV flagReg (if f then 1 else 0)

/-- The advance phase (spec/40_cycle_engine.md R86): `PC` addresses the instruction after this one. The
step's results start as nothing to report (R95). -/
def State.advance (s : State) : State := { s with pc := s.pc + Config.instrBytes, out := .quiet }

/-- Skip the next instruction if `c` (spec/41_flow.md R100): 2 more modulo 2^16. -/
def State.skipIf (s : State) (c : Bool) : State :=
  { s with pc := if c then s.pc + Config.instrBytes else s.pc }

/-- `display_dirty` is true for this step (R95, spec decision D13; log 17). -/
def State.markDirty (s : State) : State := { s with out := { s.out with displayDirty := true } }

/-- `push(a)` (R19): never fails. -/
def State.push (s : State) (a : Word) : State := { s with stack := a :: s.stack }

/-- `pop()` (R19): nothing where it raises `StackUnderflow`. -/
def State.pop (s : State) : Option (Word × State) :=
  match s.stack with
  | [] => none
  | a :: rest => some (a, { s with stack := rest })

/-! ## Taking a fatal condition -/

/-- `raise` (R203): every item keeps the value it had when the step began, `FAULT` is set, and the step
reports nothing but the recorded address (R200). `s` is the state at entry with `KEYS` already replaced.
There is no handler, no vector and no return; only `reset` leaves this state (R206). -/
def State.takeFatal (s : State) (f : FaultLatch) (info : Option Nat) : State :=
  { s with fault := f, out := { StepResult.quiet with info := info } }

/-- `raise StackUnderflow` (R201). -/
def State.raiseStackUnderflow (s : State) : State := s.takeFatal .stackUnderflow none

/-- `raise OutOfBounds(addr)` (R202). -/
def State.raiseOutOfBounds (s : State) (addr : Nat) : State := s.takeFatal .outOfBounds (some addr)

/-- `FAULT`'s code (R27; the numeric codes are the spec's own, D5): the output `fault` of R81. -/
def State.faultCode (s : State) : Nat :=
  match s.fault with
  | .none => 0
  | .stackUnderflow => 1
  | .outOfBounds => 2

/-! ## Keys (spec/45_keys_timers.md R160, spec/40_cycle_engine.md R85) -/

/-- `key_held(k)` (R160): a key index of 16 or more names no key (spec decision D9; log 13). -/
def State.keyHeld (s : State) (k : Byte) : Bool :=
  if h : k.toNat < Config.numKeys then s.keys[k.toNat] else Config.keyOutOfRangeHeld

/-- The first held key in ascending order (R85). -/
def firstHeld (keys : Vector Bool Config.numKeys) : Option (Fin Config.numKeys) :=
  (List.finRange Config.numKeys).find? (fun k => keys[k])

/-- The key-block phase (R85) while `V[x]` awaits a key: latch the least held key, or change nothing. `PC`
stays and no instruction executes. -/
def State.keyBlockPhase (s : State) (x : Nibble) : State :=
  match firstHeld s.keys with
  | some k => { s.setV x (BitVec.ofNat 8 k.val) with blocked := none, out := .quiet }
  | none => { s with out := .quiet }

/-- `BLOCKED` as the 5-bit code of R26: `NO_BLOCK`, or the index of the register that awaits a key. -/
def State.blockedCode (s : State) : BitVec 5 :=
  match s.blocked with
  | none => Config.noBlock
  | some x => x.setWidth 5

/-! ## Outputs (spec/40_cycle_engine.md R81, R96, spec/10_state.md R24) -/

/-- `sound_on` (R96). -/
def State.soundOn (s : State) : Bool := decide (0 < s.st.toNat)

/-- `fb` in row-major order (R24): cell `(r, c)` is element `r*64 + c`. -/
def State.fbFlat (s : State) : List Bool := s.fb.toList.flatMap Vector.toList

end Sys2Proof.Machine
end

