-- ==== Sys2Proof/Machine/Operands.lean ====
section
/-! DEFINITION. The operand forms: immediates (spec/30_encoding.md R63), the registers the quirks select
(spec/00_scope.md R5), the address range `I + k` (spec/20_memory.md R41) and derived operands. -/

namespace Sys2Proof.Machine

open Sys2Proof

/-- `zext_16(nnn)` (R63). -/
def zextAddr (nnn : Addr12) : Word := nnn.setWidth 16

/-- `zext_16` of a byte. -/
def zextByte (b : Byte) : Word := b.setWidth 16

/-- The register a shift reads (spec/42_alu.md R130, R132): `V[x]` or `V[y]` by `SHIFT_SRC`. -/
def State.shiftSource (s : State) (x y : Nibble) : Byte :=
  match s.cfg.shiftSrc with
  | .x => s.getV x
  | .y => s.getV y

/-- The register `JP_OFF` adds (spec/41_flow.md R108): `V[x]` with `x = nnn[11:8]`, or `V[0]`, by
`JUMP_REG`. -/
def State.jumpOffset (s : State) (nnn : Addr12) : Byte :=
  match s.cfg.jumpReg with
  | .vx => s.getV (nnn.extractLsb' 8 4)
  | .v0 => s.getV 0

/-- The base of the range `I + k`, a natural number that is not reduced (R41). -/
def State.base (s : State) : Nat := s.i.toNat

/-- `I` after a block transfer of `V[0]` to `V[x]` (spec/46_memory_transfer.md R181, R182): advanced by
`x + 1` modulo 2^16 when `LOADSTORE_INC` (spec decision D10; log 14). -/
def State.indexAfter (s : State) (x : Nibble) : Word :=
  if s.cfg.loadStoreInc then s.i + BitVec.ofNat 16 (x.toNat + 1) else s.i

/-- The three decimal digits, hundreds first (spec/46_memory_transfer.md R180). -/
def digits (b : Byte) : List Byte :=
  [BitVec.ofNat 8 (b.toNat / 100), BitVec.ofNat 8 (b.toNat / 10 % 10), BitVec.ofNat 8 (b.toNat % 10)]

/-- The bytes of `V[0]` to `V[x]`, in that order (R181). -/
def State.regBytes (s : State) (x : Nibble) : List Byte := s.v.toList.take (x.toNat + 1)

/-- `V` after `V[k] <- MEM[I + k]` for `k` in `0..x` (R182). -/
def State.loadedRegs (s : State) (x : Nibble) : Vector Byte Config.numV :=
  Vector.ofFn fun k => if k.val ≤ x.toNat then s.mem.get (s.base + k.val) else s.v[k]

/-- The address of the glyph `V[x]` (spec/43_address.md R142): the whole byte times `GLYPH_BYTES`. -/
def glyphAddr (b : Byte) : Word := BitVec.ofNat 16 Config.fontBase + zextByte b * Config.glyphBytes

end Sys2Proof.Machine
end

