-- ==== Sys2Proof/Machine/Address.lean ====
section
/-! DEFINITION. Address-register instructions (spec/43_address.md): their sole effect is to write `I`. -/

namespace Sys2Proof.Machine

open Sys2Proof

/-- `LD I, addr` (R140). -/
def execLdI (nnn : Addr12) (s : State) : Result := .next { s.advance with i := zextAddr nnn }

/-- `ADD I, Vx` (R141): modulo 2^16 (spec decision D7; log 12), no flag. -/
def execAddI (x : Nibble) (s : State) : Result :=
  .next { s.advance with i := s.i + zextByte (s.getV x) }

/-- `LD F, Vx` (R142): the whole byte is multiplied. -/
def execLdF (x : Nibble) (s : State) : Result := .next { s.advance with i := glyphAddr (s.getV x) }

end Sys2Proof.Machine
end

