-- ==== Sys2Proof/Machine/Flags.lean ====
section
/-! DEFINITION. The values written to `VF` (spec/10_state.md R16) and the results they go with
(spec/42_alu.md R120). -/

namespace Sys2Proof.Machine

open Sys2Proof

/-- The carry out of bit 7 (R128): the 9-bit sum exceeds 255. -/
def carryOut (a b : Byte) : Bool := decide (255 < a.toNat + b.toNat)

/-- No borrow in `a - b` (R129, R131), equality included. -/
def noBorrow (a b : Byte) : Bool := decide (b.toNat ≤ a.toNat)

/-- The bit a right shift by one shifts out (R130). -/
def lowBit (b : Byte) : Bool := b.getLsbD 0

/-- The bit a left shift by one shifts out (R132). -/
def highBit (b : Byte) : Bool := b.getLsbD 7

end Sys2Proof.Machine
end

