-- ==== Sys2Proof/Machine/Alu.lean ====
section
/-! DEFINITION. Register load, arithmetic, logic, shift and random (spec/42_alu.md). Sources are read
first, the result is written to `V[x]`, a flag to `V[0xF]` last (R121, spec decision D6; log 11). -/

namespace Sys2Proof.Machine

open Sys2Proof

/-- Write a result and define no flag. -/
def State.putResult (s : State) (x : Nibble) (b : Byte) : Result := .next (s.advance.setV x b)

/-- Write a result and then the flag (R121). -/
def State.putResultFlag (s : State) (x : Nibble) (b : Byte) (f : Bool) : Result :=
  .next ((s.advance.setV x b).setFlag f)

/-- `LD Vx, byte` (R122). -/
def execLdImm (x : Nibble) (nn : Byte) (s : State) : Result := s.putResult x nn

/-- `ADD Vx, byte` (R123): wraps, no flag. -/
def execAddImm (x : Nibble) (nn : Byte) (s : State) : Result := s.putResult x (s.getV x + nn)

/-- `LD Vx, Vy` (R124). -/
def execLdReg (x y : Nibble) (s : State) : Result := s.putResult x (s.getV y)

/-- `OR Vx, Vy` (R125). -/
def execOr (x y : Nibble) (s : State) : Result := s.putResult x (s.getV x ||| s.getV y)

/-- `AND Vx, Vy` (R126). -/
def execAnd (x y : Nibble) (s : State) : Result := s.putResult x (s.getV x &&& s.getV y)

/-- `XOR Vx, Vy` (R127). -/
def execXor (x y : Nibble) (s : State) : Result := s.putResult x (s.getV x ^^^ s.getV y)

/-- `ADD Vx, Vy` (R128). -/
def execAddReg (x y : Nibble) (s : State) : Result :=
  s.putResultFlag x (s.getV x + s.getV y) (carryOut (s.getV x) (s.getV y))

/-- `SUB Vx, Vy` (R129). -/
def execSub (x y : Nibble) (s : State) : Result :=
  s.putResultFlag x (s.getV x - s.getV y) (noBorrow (s.getV x) (s.getV y))

/-- `SHR Vx, Vy` (R130): the result goes to `V[x]` whichever register is shifted. -/
def execShr (x y : Nibble) (s : State) : Result :=
  s.putResultFlag x (s.shiftSource x y >>> 1) (lowBit (s.shiftSource x y))

/-- `SUBN Vx, Vy` (R131). -/
def execSubn (x y : Nibble) (s : State) : Result :=
  s.putResultFlag x (s.getV y - s.getV x) (noBorrow (s.getV y) (s.getV x))

/-- `SHL Vx, Vy` (R132): the result goes to `V[x]` whichever register is shifted. -/
def execShl (x y : Nibble) (s : State) : Result :=
  s.putResultFlag x (s.shiftSource x y <<< 1) (highBit (s.shiftSource x y))

/-- `RND Vx, byte` (R133): the step's draw is `s.rand` (R82; log 4). -/
def execRnd (x : Nibble) (nn : Byte) (s : State) : Result := s.putResult x (s.rand &&& nn)

end Sys2Proof.Machine
end

