-- ==== Sys2Proof/Machine/Display.lean ====
section
/-! DEFINITION. Display instructions (spec/44_display.md): the sprite XOR blitter and its collision
detector. -/

namespace Sys2Proof.Machine

open Sys2Proof

/-- Cell `(r mod FB_H, c mod FB_W)`. -/
def Framebuffer.cell (fb : Framebuffer) (c r : Nat) : Bool :=
  (fb[r % Config.fbH]'(Nat.mod_lt _ (by decide)))[c % Config.fbW]'(Nat.mod_lt _ (by decide))

/-- `flip(c, r)` (R150): toggle the cell at the wrapped coordinates and give its new value. -/
def Framebuffer.flipCell (fb : Framebuffer) (c r : Nat) : Framebuffer × Bool :=
  let new := !fb.cell c r
  let row := (fb[r % Config.fbH]'(Nat.mod_lt _ (by decide))).set (c % Config.fbW) new (Nat.mod_lt _ (by decide))
  (fb.set (r % Config.fbH) row (Nat.mod_lt _ (by decide)), new)

/-- A framebuffer with every cell false (R151). -/
def Framebuffer.clear : Framebuffer := Vector.replicate Config.fbH (Vector.replicate Config.fbW false)

/-- One set sprite bit (R153): flip the cell, and record a hit if it went from true to false. -/
def blitBit (acc : Framebuffer × Bool) (c r : Nat) : Framebuffer × Bool :=
  let (fb, new) := acc.1.flipCell c r
  (fb, acc.2 || !new)

/-- The cells, as column and row before the wrap, under the set bits of one sprite row drawn from column
`x0` (R152): bit `7 - j` of the byte is sprite column `j` (spec decision D18; log 15). -/
def rowPoints (x0 r : Nat) (b : Byte) : List (Nat × Nat) :=
  ((List.range 8).filter fun j => b.getLsbD (7 - j)).map fun j => (x0 + j, r)

/-- The cells under the set bits of a sprite, row by row (R153): row `r` of it is drawn on row `y0 + r`. -/
def spritePoints (x0 y0 : Nat) : List Byte → List (Nat × Nat)
  | [] => []
  | b :: bs => rowPoints x0 y0 b ++ spritePoints x0 (y0 + 1) bs

/-- The blit (R153, phase 2): flip the cells in order, from no hit. -/
def blit (fb : Framebuffer) (points : List (Nat × Nat)) : Framebuffer × Bool :=
  points.foldl (fun acc p => blitBit acc p.1 p.2) (fb, false)

/-- `CLS` (R151). -/
def execCls (s : State) : Result := .next { s.advance with fb := .clear }.markDirty

/-- `DRW Vx, Vy, nibble` (R153): all memory reads come first, so a raise leaves every cell and `VF` as
they were; with `n = 0` no memory is read. -/
def execDrw (x y n : Nibble) (s : State) : Result :=
  match Memory.firstOutside s.base n.toNat with
  | some a => .next (s.raiseOutOfBounds a)
  | none =>
    let drawn := blit s.fb (spritePoints ((s.getV x).toNat % Config.fbW) ((s.getV y).toNat % Config.fbH)
      (s.mem.slice s.base n.toNat))
    .next ({ s.advance with fb := drawn.1 }.setFlag drawn.2).markDirty

end Sys2Proof.Machine
end

