-- ==== Sys2Proof/Machine/Flow.lean ====
section
/-! DEFINITION. Control transfer (spec/41_flow.md). In every meaning `s` is the state before the advance:
`s.pc` is the address `P` the instruction was fetched from (log 22). -/

namespace Sys2Proof.Machine

open Sys2Proof

/-- `RET` (R101). -/
def execRet (s : State) : Result :=
  match s.advance.pop with
  | none => .next s.raiseStackUnderflow
  | some (a, t) => .next { t with pc := a }

/-- `JP addr` (R102). -/
def execJp (nnn : Addr12) (s : State) : Result := .next { s.advance with pc := zextAddr nnn }

/-- `CALL addr` (R103): pushes the advanced `PC`. -/
def execCall (nnn : Addr12) (s : State) : Result :=
  .next { s.advance.push s.advance.pc with pc := zextAddr nnn }

/-- `SE Vx, byte` (R104). -/
def execSe (x : Nibble) (nn : Byte) (s : State) : Result := .next (s.advance.skipIf (s.getV x == nn))

/-- `SNE Vx, byte` (R105). -/
def execSne (x : Nibble) (nn : Byte) (s : State) : Result := .next (s.advance.skipIf (s.getV x != nn))

/-- `SE Vx, Vy` (R106). -/
def execSeReg (x y : Nibble) (s : State) : Result := .next (s.advance.skipIf (s.getV x == s.getV y))

/-- `SNE Vx, Vy` (R107). -/
def execSneReg (x y : Nibble) (s : State) : Result := .next (s.advance.skipIf (s.getV x != s.getV y))

/-- `JP Vx, addr` (R108): not PC-relative and not reduced to 12 bits. -/
def execJpOff (nnn : Addr12) (s : State) : Result :=
  .next { s.advance with pc := zextAddr nnn + zextByte (s.jumpOffset nnn) }

end Sys2Proof.Machine
end

