-- ==== Sys2Proof/Machine/KeysTimers.lean ====
section
/-! DEFINITION. Key and timer instructions (spec/45_keys_timers.md) and the timer tick
(spec/40_cycle_engine.md R90 to R94). -/

namespace Sys2Proof.Machine

open Sys2Proof

/-- `SKP Vx` (R161). -/
def execSkp (x : Nibble) (s : State) : Result := .next (s.advance.skipIf (s.keyHeld (s.getV x)))

/-- `SKNP Vx` (R162). -/
def execSknp (x : Nibble) (s : State) : Result := .next (s.advance.skipIf (!s.keyHeld (s.getV x)))

/-- `LD Vx, DT` (R164). -/
def execLdVxDt (x : Nibble) (s : State) : Result := .next (s.advance.setV x s.dt)

/-- `LD Vx, K` (R163): does not look at the keys; the latching is the key-block phase of later steps. -/
def execLdVxK (x : Nibble) (s : State) : Result := .next { s.advance with blocked := some x }

/-- `LD DT, Vx` (R165): `ACC` is not reset. -/
def execLdDt (x : Nibble) (s : State) : Result := .next { s.advance with dt := s.getV x }

/-- `LD ST, Vx` (R166): `ACC` is not reset. -/
def execLdSt (x : Nibble) (s : State) : Result := .next { s.advance with st := s.getV x }

/-- `k` decrements of a counter, floored at 0 (R93). -/
def countDown (b : Byte) (k : Nat) : Byte := BitVec.ofNat 8 (b.toNat - k)

/-- `tick(elapsed)` (R93), in the closed form R93 gives for its loop: one decrement per whole interval
(spec decision D3; log 16). It runs in a key-block and does nothing once faulted. -/
def State.tick (s : State) (elapsed : Nat) : State :=
  if s.fault = .none then
    let k := (s.acc + elapsed) / s.cfg.tickInterval
    { s with
      dt := countDown s.dt k
      st := countDown s.st k
      acc := (s.acc + elapsed) - k * s.cfg.tickInterval }
  else s

/-- One turn of R93's loop. -/
def State.tickOnce (s : State) : State :=
  { s with
    dt := if 0 < s.dt.toNat then s.dt - 1 else s.dt
    st := if 0 < s.st.toNat then s.st - 1 else s.st
    acc := s.acc - s.cfg.tickInterval }

/-- R93's loop, run while `ACC` holds a whole interval; `fuel` bounds its turns. The statements compare
`tick` with it. -/
def State.tickLoop : Nat → State → State
  | 0, s => s
  | fuel + 1, s => if s.cfg.tickInterval ≤ s.acc then State.tickLoop fuel s.tickOnce else s

end Sys2Proof.Machine
end

