-- ==== Sys2Proof/Machine/MemoryTransfer.lean ====
section
/-! DEFINITION. Memory transfer instructions (spec/46_memory_transfer.md). Each checks its whole range
first and takes no effect if any byte of it is out of bounds (R183, spec decision D5; log 1). -/

namespace Sys2Proof.Machine

open Sys2Proof

/-- `LD B, Vx` (R180). -/
def execLdB (x : Nibble) (s : State) : Result :=
  match Memory.firstOutside s.base 3 with
  | some a => .next (s.raiseOutOfBounds a)
  | none => .next { s.advance with mem := s.mem.store s.base (digits (s.getV x)) }

/-- `LD [I], Vx` (R181). -/
def execStRegs (x : Nibble) (s : State) : Result :=
  match Memory.firstOutside s.base (x.toNat + 1) with
  | some a => .next (s.raiseOutOfBounds a)
  | none => .next { s.advance with mem := s.mem.store s.base (s.regBytes x), i := s.indexAfter x }

/-- `LD Vx, [I]` (R182). -/
def execLdRegs (x : Nibble) (s : State) : Result :=
  match Memory.firstOutside s.base (x.toNat + 1) with
  | some a => .next (s.raiseOutOfBounds a)
  | none => .next { s.advance with v := s.loadedRegs x, i := s.indexAfter x }

end Sys2Proof.Machine
end

