-- ==== Sys2Proof/Machine/Unrecognised.lean ====
section
/-! DEFINITION. Unrecognised encodings (spec/47_unknown.md). -/

namespace Sys2Proof.Machine

open Sys2Proof

/-- An unrecognised word (R190): a no-op but for the advance of `PC`, reported as
`UnknownOpcode(word, address)` with the address it was fetched from (R204). -/
def execUnknown (w : Word) (s : State) : Result :=
  .next { s.advance with out := { StepResult.quiet with diag := some ⟨w, s.pc⟩ } }

end Sys2Proof.Machine
end

