-- ==== Sys2Proof/Machine/Cycle.lean ====
section
/-! DEFINITION. The cycle engine's `step` transaction (spec/40_cycle_engine.md R83 to R88), the `reset`
transaction (spec/70_reset_and_hazards.md R230 to R232) and the host's choice of transactions (R80). -/

namespace Sys2Proof.Machine

open Sys2Proof

/-- The fetch phase (R84; spec/20_memory.md R44): the big-endian word at `PC`, or the address of the first
byte out of bounds. -/
def State.fetch (s : State) : Except Nat Word :=
  match Memory.firstOutside s.pc.toNat 2 with
  | some a => .error a
  | none => .ok (wordOfBytes (s.mem.get s.pc.toNat) (s.mem.get (s.pc.toNat + 1)))

/-- The host supplies the inputs of one step (R81): `keys` replaces `KEYS`, and `rand` is the draw. -/
def State.supply (s : State) (keys : Vector Bool Config.numKeys) (rand : Byte) : State :=
  { s with keys := keys, rand := rand }

/-- Fetch, advance, decode and execute (R84, R86, R87). -/
def State.fetchExec (s : State) : Result :=
  match s.fetch with
  | .error a => .next (s.raiseOutOfBounds a)
  | .ok w => exec (decodeWord w) s

/-- `step(keys, rand)` (R83): nothing once faulted (R88), the key-block phase while one is pending (R85),
one instruction otherwise. -/
def State.cycle (s : State) (keys : Vector Bool Config.numKeys) (rand : Byte) : Result :=
  if s.fault = .none then
    let t := s.supply keys rand
    match t.blocked with
    | some x => .next (t.keyBlockPhase x)
    | none => t.fetchExec
  else .next { s with out := .quiet }

/-- `image_fits` (R232, spec decision D25; log 20). -/
def imageFits (font program : List Byte) (loadOffset : Word) : Bool :=
  decide (font.length = Config.fontLen) && decide (loadOffset.toNat + program.length ≤ Config.memSize)

/-- Memory after the image load (R230): zeros, then the font, then the program. The font covers every
address whose unlisted byte is not 0, so storing it over the empty list leaves zeros elsewhere. -/
def loadImage (font program : List Byte) (loadOffset : Word) : Memory :=
  (Memory.store [] Config.fontBase font).store loadOffset.toNat program

/-- `reset(FONT, PROGRAM, LOAD_OFFSET, quirks)` (R230): refused where the image does not fit; otherwise
nothing of the block survives it (R231). The host's own coming transactions and draws go on. -/
def State.resetWith (s : State) (font program : List Byte) (loadOffset : Word)
    (cfg : Config.Settings) : Result :=
  if imageFits font program loadOffset then
    if cfg.tickInterval = 0 then .refused .tickIntervalNotPositive
    else .next
      { State.reset with
        mem := loadImage font program loadOffset
        cfg := cfg
        pending := s.pending
        draws := s.draws }
  else .refused .imageDoesNotFit

/-- One transaction of the host (R80, R81). -/
def State.transact (s : State) : Transaction → Result
  | .step keys rand => s.cycle keys rand
  | .tick elapsed => .next (s.tick elapsed)
  | .reset font program loadOffset cfg => s.resetWith font program loadOffset cfg

/-- The free host (log 2, 3, 21): some time passes, and then a step comes with keys and a random byte that
nothing constrains. -/
def State.freeTransact (s : State) : Result :=
  ({ s with draws := s.draws + 1 }.tick (Config.hostElapsed s.draws)).cycle
    (Config.hostKeys s.draws) (Config.hostRand s.draws)

/-- The next transaction: the first of those the host has decided on, else the free host's. -/
def State.nextTransaction (s : State) : Result :=
  match s.pending with
  | [] => s.freeTransact
  | t :: rest => { s with pending := rest }.transact t

/-- `m` with a word at `a`, high byte first, as far as it lies in memory. -/
def Memory.putWord (m : Memory) (a : Nat) (w : Word) : Memory :=
  if a + 1 < Config.memSize then m.store a [hiByte w, loByte w] else m

end Sys2Proof.Machine
end

