-- ==== Sys2Proof/Machine/Step.lean ====
section
/-! DEFINITION. One step of the machine: one transaction of the host (spec/40_cycle_engine.md R80). -/

namespace Sys2Proof.Machine

open Sys2Proof

/-- The next transaction of the host, carried out whole. -/
def step (s : State) : Host.Outcome State Fault Refusal := s.nextTransaction

/-- `s` with the instruction `w` stored at `PC`, where the next step fetches. The program is loaded from
outside the machine (log 19), so this stands for that load; no key-block, no fault and no scripted
transaction keeps the very next step from running it. -/
def State.withFetchWord (s : State) (nbits w : Nat) : State :=
  { s with
    mem := s.mem.putWord s.pc.toNat (BitVec.ofNat 16 (w % 2 ^ nbits))
    blocked := none
    fault := .none
    pending := [] }

end Sys2Proof.Machine
end

