-- ==== Sys2Proof/WellFormed.lean ====
section
/-! DEFINITION. Which terms of `Instr` are instructions of the machine: the operands' types already keep
every field in range, so the one check is that `unknown` holds a word R67 calls unrecognised. -/

namespace Sys2Proof

/-- The table of spec/30_encoding.md R67: the words that are no defined instruction. -/
def unrecognised (w : Word) : Bool :=
  (opOf w == 0x0#4 && !([0xE0, 0xEE].contains (nnOf w).toNat)) ||
  (opOf w == 0x8#4 && [0x8, 0x9, 0xA, 0xB, 0xC, 0xD, 0xF].contains (nOf w).toNat) ||
  (opOf w == 0xE#4 && !([0x9E, 0xA1].contains (nnOf w).toNat)) ||
  (opOf w == 0xF#4 &&
    !([0x07, 0x0A, 0x15, 0x18, 0x1E, 0x29, 0x33, 0x55, 0x65].contains (nnOf w).toNat))

/-- Well-formedness of an instruction. -/
def Instr.wf : Instr → Bool
  | .cls | .ret => true
  | .jp _ | .call _ | .ldI _ | .jpOff _ => true
  | .se _ _ | .sne _ _ | .ldImm _ _ | .addImm _ _ | .rnd _ _ => true
  | .seReg _ _ | .sneReg _ _ => true
  | .ldReg _ _ | .orReg _ _ | .andReg _ _ | .xorReg _ _ => true
  | .addReg _ _ | .sub _ _ | .shr _ _ | .subn _ _ | .shl _ _ => true
  | .drw _ _ _ => true
  | .skp _ | .sknp _ | .ldVxDt _ | .ldVxK _ | .ldDt _ | .ldSt _ => true
  | .addI _ | .ldF _ | .ldB _ | .stRegs _ | .ldRegs _ => true
  | .unknown w => unrecognised w

end Sys2Proof
end

