-- ==== Sys2Proof/Safety.lean ====
section
/-! DEFINITION. The terms the statements use: which items of the state a transaction may change, the
invariants of the machine, and what a sprite covers. -/

namespace Sys2Proof.Machine

open Sys2Proof

/-- The twelve items of the block's state (spec/10_state.md R10). -/
inductive Item where
  | mem
  | v
  | i
  | pc
  | stack
  | dt
  | st
  | acc
  | fb
  | keys
  | blocked
  | fault
  deriving DecidableEq, Repr

/-- An item has the same value in both states; memory is compared byte by byte. -/
def Keeps (it : Item) (s t : State) : Prop :=
  match it with
  | .mem => ∀ a, t.mem.read a = s.mem.read a
  | .v => t.v = s.v
  | .i => t.i = s.i
  | .pc => t.pc = s.pc
  | .stack => t.stack = s.stack
  | .dt => t.dt = s.dt
  | .st => t.st = s.st
  | .acc => t.acc = s.acc
  | .fb => t.fb = s.fb
  | .keys => t.keys = s.keys
  | .blocked => t.blocked = s.blocked
  | .fault => t.fault = s.fault

/-- From `s` to `t` no item changes but those listed, and neither do the configuration and the host's side
(the current draw, the coming transactions, the draw counter). What `t` reports in `out` is left open. -/
def ChangesOnly (may : List Item) (s t : State) : Prop :=
  (∀ it, it ∉ may → Keeps it s t) ∧
    t.cfg = s.cfg ∧ t.rand = s.rand ∧ t.pending = s.pending ∧ t.draws = s.draws

/-- The block has not met a fatal condition. -/
def State.running (s : State) : Bool := decide (s.fault = .none)

/-- Memory keeps its canonical form. -/
def State.MemInv (s : State) : Prop := s.mem.wf = true

/-- `0 <= ACC < TICK_INTERVAL` (R21): the interval is positive and less than one is carried. -/
def State.TimeInv (s : State) : Prop := s.acc < s.cfg.tickInterval

/-- What execution can put into `PC` and onto the stack: no jump target lies above 0x10FE (R15, R108) and
no return address above 4096 (spec/41_flow.md R101). -/
def State.FlowInv (s : State) : Prop := s.pc.toNat ≤ 0x10FE ∧ ∀ a ∈ s.stack, a.toNat ≤ 4096

/-- The invariant of the machine. -/
def State.Inv (s : State) : Prop := s.MemInv ∧ s.TimeInv ∧ s.FlowInv

/-- A set bit of the `n`-row sprite at `I`, drawn at `(V[x], V[y])`, lands on column `c` and row `r`
(spec/44_display.md R152). -/
def SpriteCovers (s : State) (x y n : Nibble) (c r : Nat) : Prop :=
  ∃ k j b, k < n.toNat ∧ j < 8 ∧ s.mem.read (s.base + k) = some b ∧ b.getLsbD (7 - j) = true ∧
    c = ((s.getV x).toNat + j) % 64 ∧ r = ((s.getV y).toNat + k) % 32

/-- `b` is what address `a` of memory `m` holds after the bytes `f 0` to `f (len - 1)` have been stored from
`base` on: the stored byte inside the range, the old one outside. -/
def StoredByte (m : Memory) (base len : Nat) (f : Nat → Byte) (a : Nat) (b : Byte) : Prop :=
  (∀ k, k < len → a = base + k → b = f k) ∧ (a < base ∨ base + len ≤ a → m.read a = some b)

/-- Every word of the row `mask`, `value` (spec/30_encoding.md R65) decodes to `f` of it. -/
def DecodesAs (mask value : Word) (f : Word → Instr) : Prop := ∀ w, w &&& mask = value → decodeWord w = f w

/-- Change the state an outcome holds. -/
def mapNext (f : State → State) : Result → Result
  | .next s => .next (f s)
  | .fault r => .fault r
  | .refused r => .refused r

/-- The six instructions that write `VF` as a flag (spec/10_state.md R16). -/
def Instr.definesFlag : Instr → Bool
  | .addReg _ _ | .sub _ _ | .shr _ _ | .subn _ _ | .shl _ _ | .drw _ _ _ => true
  | .cls | .ret | .jp _ | .call _ | .se _ _ | .sne _ _ | .seReg _ _ | .sneReg _ _ => false
  | .ldImm _ _ | .addImm _ _ | .ldReg _ _ | .orReg _ _ | .andReg _ _ | .xorReg _ _ | .rnd _ _ => false
  | .ldI _ | .jpOff _ | .skp _ | .sknp _ | .ldVxDt _ | .ldVxK _ | .ldDt _ | .ldSt _ => false
  | .addI _ | .ldF _ | .ldB _ | .stRegs _ | .ldRegs _ | .unknown _ => false

/-- Whether register `r` is a destination that the instruction names through `x`: `V[x]` itself, or
`V[0]` to `V[x]` for `LD_REGS`. -/
def Instr.writesReg (r : Nibble) : Instr → Bool
  | .ldImm x _ | .addImm x _ | .rnd x _ | .ldVxDt x => r == x
  | .ldReg x _ | .orReg x _ | .andReg x _ | .xorReg x _ => r == x
  | .addReg x _ | .sub x _ | .shr x _ | .subn x _ | .shl x _ => r == x
  | .ldRegs x => decide (r.toNat ≤ x.toNat)
  | .cls | .ret | .jp _ | .call _ | .se _ _ | .sne _ _ | .seReg _ _ | .sneReg _ _ => false
  | .ldI _ | .jpOff _ | .drw _ _ _ | .skp _ | .sknp _ | .ldVxK _ | .ldDt _ | .ldSt _ => false
  | .addI _ | .ldF _ | .ldB _ | .stRegs _ | .unknown _ => false

end Sys2Proof.Machine
end

