-- ==== Sys2Proof/Certificates/Slice0/Obligations.lean ====
section
/-! DEFINITION. The statements about the machine, for the provers. `s.base` is `I` as a natural number. Where a
docstring names a decision D<n>, the clause it names is the spec's own choice (spec/92_eei_decisions.md)
or the model's (a log entry under notes/assumptions). -/

open Sys2Proof Sys2Proof.Machine

/-! ## Encoding -/

/-- Decoding the word of a well-formed instruction gives it back, and so does decoding its two bytes, with
what follows them left over (spec/30_encoding.md R60 to R65; unexamined nibbles are written 0, log 10). -/
def Obligations.DecodeEncodeRoundTrip : Prop :=
  ∀ i : Instr, i.wf = true →
    decodeWord (encode i) = i ∧ ∀ rest, decode (encodeBytes i ++ rest) = .ok (i, rest)

/-- R62: the fields of a word rebuild it exactly. -/
def Obligations.FieldsRebuildTheWord : Prop :=
  ∀ w : Word,
    w.toNat = (opOf w).toNat * 4096 + (nnnOf w).toNat ∧
    (nnnOf w).toNat = (xOf w).toNat * 256 + (yOf w).toNat * 16 + (nOf w).toNat ∧
    (nnOf w).toNat = (yOf w).toNat * 16 + (nOf w).toNat ∧
    packXYN (opOf w) (xOf w) (yOf w) (nOf w) = w ∧ packNNN (opOf w) (nnnOf w) = w

/-- The opcode map (R65): a word decodes to a row's instruction exactly when it matches the row, no word
matches two rows, and a word that matches none is unrecognised. That CLS, RET, SE_REG and SNE_REG do not
examine a nibble is decision D16 (log 10). -/
def Obligations.DecodingFollowsTheOpcodeMap : Prop :=
  ∀ w : Word,
    (∀ r ∈ opcodeMap, (decodeWord w).mnemonic = r.mnemonic ↔ r.matches w = true) ∧
    (∀ r ∈ opcodeMap, ∀ r' ∈ opcodeMap, r.matches w = true → r'.matches w = true → r = r') ∧
    ((∀ r ∈ opcodeMap, r.matches w = false) ↔ decodeWord w = .unknown w)

/-- The unrecognised words are exactly those of R67's table (derived there from R64 and R65; decision D16,
log 10). -/
def Obligations.UnrecognisedWordsAreTheTable : Prop :=
  ∀ w : Word, decodeWord w = .unknown w ↔ unrecognised w = true

/-- Words of the spec decode to the instructions they stand for: nine of spec/95_test_vectors.md 2.1, and there
0xD7A5 of E1, 0x2300 of F5 and 0xF265 of M14. That 0x01E0, 0x0FEE and 0x9ABF do so, although a nibble their rows
do not examine is not 0, is decision D16 (log 10). -/
def Obligations.SpecWordsDecode : Prop :=
  decodeWord 0x01E0 = .cls ∧ decodeWord 0x0FEE = .ret ∧ decodeWord 0x2300 = .call 0x300 ∧
    decodeWord 0x9ABF = .sneReg 0xA 0xB ∧ decodeWord 0x8ABE = .shl 0xA 0xB ∧
    decodeWord 0x8AB8 = .unknown 0x8AB8 ∧ decodeWord 0xB2F0 = .jpOff 0x2F0 ∧
    decodeWord 0xD7A5 = .drw 7 0xA 5 ∧ decodeWord 0xE1A1 = .sknp 1 ∧ decodeWord 0xF11E = .addI 1 ∧
    decodeWord 0xF265 = .ldRegs 2 ∧ decodeWord 0x0123 = .unknown 0x0123

/-! ## Fetch and step -/

/-- When the two bytes at `PC` decode to an instruction and nothing keeps the block from running it, a step is
`exec` of it at that state with the host's inputs supplied: `keys` replaces `KEYS` and `rand` is the draw.
A scripted step takes them from the host's list; the free host (log 2, 3, 21) first lets some time pass
and counts the draw. -/
def Obligations.StepRunsTheDecodedInstruction : Prop :=
  ∀ (s : State) (hi lo : Byte) (i : Instr),
    s.fault = .none → s.blocked = none →
    s.mem.read s.pc.toNat = some hi → s.mem.read (s.pc.toNat + 1) = some lo →
    decode [hi, lo] = .ok (i, []) →
      (∀ keys rand rest, s.pending = .step keys rand :: rest →
        step s = exec i { s with pending := rest, keys := keys, rand := rand }) ∧
      (s.pending = [] →
        step s = exec i
          { s with
            dt := countDown s.dt ((s.acc + Config.hostElapsed s.draws) / s.cfg.tickInterval)
            st := countDown s.st ((s.acc + Config.hostElapsed s.draws) / s.cfg.tickInterval)
            acc := s.acc + Config.hostElapsed s.draws -
              (s.acc + Config.hostElapsed s.draws) / s.cfg.tickInterval * s.cfg.tickInterval
            keys := Config.hostKeys s.draws
            rand := Config.hostRand s.draws
            draws := s.draws + 1 })

/-- One step of the machine is the next transaction of the host, carried out whole, in every state, a blocked or
faulted one included (R80, R81, R83). A script of transactions and the free host, who lets some time pass
and then steps, are the model's way to hold them (log 2, 3, 21). -/
def Obligations.StepCarriesOutTheNextTransaction : Prop :=
  ∀ s : State,
    (∀ keys rand rest, s.pending = .step keys rand :: rest →
      step s = { s with pending := rest }.cycle keys rand) ∧
    (∀ e rest, s.pending = .tick e :: rest → step s = .next ({ s with pending := rest }.tick e)) ∧
    (∀ font program offset cfg rest, s.pending = .reset font program offset cfg :: rest →
      step s = { s with pending := rest }.resetWith font program offset cfg) ∧
    (s.pending = [] →
      step s = ({ s with draws := s.draws + 1 }.tick (Config.hostElapsed s.draws)).cycle
        (Config.hostKeys s.draws) (Config.hostRand s.draws))

/-- The fetch (spec/20_memory.md R44, derived there from R41 and R42): below 4095 the word at `PC` has the byte
at the lower address as its bits 15:8; from 4095 on it raises `OutOfBounds` with the first address out
of bounds, and the step latches it (decisions D5, D8; log 1, 12). -/
def Obligations.FetchIsBigEndianAndBounded : Prop :=
  ∀ s : State,
    (s.pc.toNat < 4095 → ∃ hi lo w,
      s.mem.read s.pc.toNat = some hi ∧ s.mem.read (s.pc.toNat + 1) = some lo ∧
      s.fetch = .ok w ∧ w.toNat = hi.toNat * 256 + lo.toNat) ∧
    (4095 ≤ s.pc.toNat → ∀ keys rand, s.fault = .none → s.blocked = none → ∃ t,
      s.cycle keys rand = .next t ∧ t.fault = .outOfBounds ∧ t.out.info = some (max s.pc.toNat 4096) ∧
      ChangesOnly [.fault] (s.supply keys rand) t)

/-- R85: the key-block phase. The least held key is latched and the block cleared, or nothing changes; `PC` does
not advance and no instruction executes. -/
def Obligations.KeyBlockLatchesTheLeastHeldKey : Prop :=
  ∀ (s : State) (x : Nibble) (keys : Vector Bool 16) (rand : Byte),
    s.fault = .none → s.blocked = some x → ∃ t, s.cycle keys rand = .next t ∧ t.out = .quiet ∧
      ((∀ k : Fin 16, keys[k] = false) → ChangesOnly [] (s.supply keys rand) t) ∧
      (∀ k : Fin 16, keys[k] = true → (∀ j : Fin 16, j < k → keys[j] = false) →
        (∀ r, t.getV r = if r = x then BitVec.ofNat 8 k.val else s.getV r) ∧ t.blocked = none ∧
        ChangesOnly [.v, .blocked] (s.supply keys rand) t)

/-- Once faulted, a `step` changes nothing, not even `KEYS`, and reports nothing, and a `tick` changes nothing
(R88, R93, R203; decision D5, log 1). -/
def Obligations.FaultedBlockIgnoresStepAndTick : Prop :=
  ∀ s : State, s.fault ≠ .none →
    (∀ keys rand, ∃ t, s.cycle keys rand = .next t ∧ ChangesOnly [] s t ∧ t.out = .quiet) ∧
    ∀ e, s.tick e = s

/-- A step that raises a fatal condition keeps every item but `KEYS`, which holds the array supplied with the
step, and `FAULT` (spec/60_exceptions.md R203; decision D5, log 1). -/
def Obligations.FatalStepKeepsEverythingElse : Prop :=
  ∀ (s t : State) (keys : Vector Bool 16) (rand : Byte),
    s.fault = .none → s.cycle keys rand = .next t → t.fault ≠ .none →
      ChangesOnly [.keys, .fault] { s with rand := rand } t ∧ t.keys = keys ∧
      t.out.displayDirty = false ∧ t.out.diag = none

/-- Which instructions raise which fatal condition, and when (spec/60_exceptions.md R200 to R202; that the
condition is latched in `FAULT` is decision D5, that `I + k` is not reduced is D8; log 1, 12). -/
def Obligations.FatalConditionsAreExactlyThese : Prop :=
  ∀ (i : Instr) (s t : State), s.fault = .none → exec i s = .next t →
    (t.fault = .stackUnderflow ↔ i = .ret ∧ s.stack = []) ∧
    (t.fault = .outOfBounds ↔
      (∃ x y n, i = .drw x y n ∧ 1 ≤ n.toNat ∧ 4096 ≤ s.base + n.toNat - 1) ∨
      (∃ x, i = .ldB x ∧ 4096 ≤ s.base + 2) ∨
      (∃ x, (i = .stRegs x ∨ i = .ldRegs x) ∧ 4096 ≤ s.base + x.toNat))

/-- No item is written by an instruction outside the "written by" column of R10's table (spec/10_state.md). `FAULT`
is written by the five instructions of R200 that can raise a fatal condition (decision D5, log 1). -/
def Obligations.ItemsAreWrittenOnlyAsTabled : Prop :=
  ∀ (i : Instr) (s t : State), exec i s = .next t →
    (¬Keeps .mem s t → ∃ x, i = .ldB x ∨ i = .stRegs x) ∧
    (¬Keeps .i s t → (∃ nnn, i = .ldI nnn) ∨ (∃ x, i = .addI x ∨ i = .ldF x) ∨
      (s.cfg.loadStoreInc = true ∧ ∃ x, i = .stRegs x ∨ i = .ldRegs x)) ∧
    (¬Keeps .stack s t → i = .ret ∨ ∃ nnn, i = .call nnn) ∧
    (¬Keeps .dt s t → ∃ x, i = .ldDt x) ∧
    (¬Keeps .st s t → ∃ x, i = .ldSt x) ∧
    (¬Keeps .fb s t → i = .cls ∨ ∃ x y n, i = .drw x y n) ∧
    (¬Keeps .blocked s t → ∃ x, i = .ldVxK x) ∧
    (¬Keeps .fault s t → i = .ret ∨ (∃ x y n, i = .drw x y n) ∨
      ∃ x, i = .ldB x ∨ i = .stRegs x ∨ i = .ldRegs x) ∧
    Keeps .acc s t ∧ Keeps .keys s t ∧
    t.cfg = s.cfg ∧ t.rand = s.rand ∧ t.pending = s.pending ∧ t.draws = s.draws

/-- A register changes only if the instruction names it as a destination through `x`, or if it is `VF` and the
instruction is one of the six that define a flag (spec/10_state.md, sections 2 and 4). -/
def Obligations.RegistersChangeOnlyAsNamed : Prop :=
  ∀ (i : Instr) (s t : State) (r : Nibble), exec i s = .next t →
    Instr.writesReg r i = false → (r = flagReg → Instr.definesFlag i = false) → t.getV r = s.getV r

/-- What an instruction does not read cannot matter: `KEYS` is read by SKP and SKNP alone, the draw by RND alone,
`DT` by LD_VX_DT alone, `ST` by none, memory by DRW, LD_REGS and nothing else, the framebuffer by DRW
alone (spec/10_state.md R10, "read by"; spec/40_cycle_engine.md R97). Replacing such an item before the instruction
only replaces it after. -/
def Obligations.UnreadItemsDoNotMatter : Prop :=
  ∀ (i : Instr) (s : State),
    (∀ k, (∀ x, i ≠ .skp x ∧ i ≠ .sknp x) →
      exec i { s with keys := k } = mapNext (fun t => { t with keys := k }) (exec i s)) ∧
    (∀ b, (∀ x nn, i ≠ .rnd x nn) →
      exec i { s with rand := b } = mapNext (fun t => { t with rand := b }) (exec i s)) ∧
    (∀ b, (∀ x, i ≠ .ldVxDt x ∧ i ≠ .ldDt x) →
      exec i { s with dt := b } = mapNext (fun t => { t with dt := b }) (exec i s)) ∧
    (∀ b, (∀ x, i ≠ .ldSt x) →
      exec i { s with st := b } = mapNext (fun t => { t with st := b }) (exec i s)) ∧
    (∀ m, (∀ x, i ≠ .ldB x ∧ i ≠ .stRegs x ∧ i ≠ .ldRegs x) → (∀ x y n, i ≠ .drw x y n) →
      exec i { s with mem := m } = mapNext (fun t => { t with mem := m }) (exec i s)) ∧
    (∀ fb, i ≠ .cls → (∀ x y n, i ≠ .drw x y n) →
      exec i { s with fb := fb } = mapNext (fun t => { t with fb := fb }) (exec i s))

/-- Nothing but a refused reset stops the machine: every other transaction gives a next state
(spec/60_exceptions.md R200: everything but the two fatal conditions "degrades gracefully", and those
are latched by decision D5; log 1, 20). -/
def Obligations.StepStopsOnlyOnRefusedReset : Prop :=
  ∀ s : State, (∃ t, step s = .next t) ∨
    (∃ font program offset cfg rest, s.pending = .reset font program offset cfg :: rest ∧
      ((imageFits font program offset = false ∧ step s = .refused .imageDoesNotFit) ∨
        (cfg.tickInterval = 0 ∧ step s = .refused .tickIntervalNotPositive)))

/-! ## Outputs -/

/-- The framebuffer read-out (spec/10_state.md R24): 2048 cells, cell `(r, c)` at `r*64 + c`. The flat order is the
spec's choice among those the document allows (decision D1; log 27). -/
def Obligations.FramebufferReadsOutRowMajor : Prop :=
  ∀ s : State, s.fbFlat.length = 2048 ∧
    ∀ c r, c < 64 → r < 32 → s.fbFlat[r * 64 + c]? = some (s.fb.cell c r)

/-- The codes of the latches: the output `fault` (spec/10_state.md R27, spec/40_cycle_engine.md R81; the numbers are
decision D5, log 1) and `BLOCKED` with `NO_BLOCK` (R26; log 18). -/
def Obligations.LatchCodesAreAsListed : Prop :=
  ∀ s : State,
    (s.faultCode = 0 ↔ s.fault = .none) ∧ (s.faultCode = 1 ↔ s.fault = .stackUnderflow) ∧
    (s.faultCode = 2 ↔ s.fault = .outOfBounds) ∧ s.faultCode ≤ 2 ∧
    (s.blockedCode = 0x10 ↔ s.blocked = none) ∧
    (∀ x : Nibble, s.blockedCode.toNat = x.toNat ↔ s.blocked = some x) ∧ s.blockedCode.toNat ≤ 0x10

/-! ## Registers and memory -/

/-- R13: register writes are idempotent and isolated. -/
def Obligations.RegisterWritesAreIdempotentAndIsolated : Prop :=
  ∀ (s : State) (x : Nibble) (b : Byte),
    (s.setV x b).setV x b = s.setV x b ∧ (s.setV x b).getV x = b ∧
    ∀ y, y ≠ x → (s.setV x b).getV y = s.getV y

/-- R42 and R43: an address below 4096 reads what was last written to it, a write changes no other byte, and an
address of 4096 or more is out of bounds for both. -/
def Obligations.MemoryReadsWhatWasWritten : Prop :=
  ∀ (m : Memory) (a : Nat) (b : Byte),
    (a < 4096 → Memory.firstOutside a 1 = none ∧ (∃ c, m.read a = some c) ∧
      (m.set a b).read a = some b ∧ ∀ k, k ≠ a → (m.set a b).read k = m.read k) ∧
    (4096 ≤ a → Memory.firstOutside a 1 = some a ∧ m.read a = none)

/-! ## Control transfer -/

/-- `RET` (R101): the popped value is used whole; with an empty stack it raises `StackUnderflow` and changes
nothing but `FAULT` (decision D5, log 1; the unexamined nibble of its word is D16, log 10). -/
def Obligations.RetPopsOrUnderflows : Prop :=
  DecodesAs 0xF0FF 0x00EE (fun _ => .ret) ∧
  (∀ (s : State) (a : Word) (rest : List Word), s.stack = a :: rest → ∃ t, exec .ret s = .next t ∧
    t.pc = a ∧ t.stack = rest ∧ t.out = .quiet ∧ ChangesOnly [.pc, .stack] s t) ∧
  ∀ s : State, s.stack = [] → ∃ t, exec .ret s = .next t ∧
    t.fault = .stackUnderflow ∧ ChangesOnly [.fault] s t

/-- `JP` (R102) and `CALL` (R103): the target is `nnn`, zero-extended; `CALL` pushes the address after itself. A
jump to 0xFFF makes the next fetch raise `OutOfBounds`. -/
def Obligations.JumpAndCallGoToTheAddress : Prop :=
  DecodesAs 0xF000 0x1000 (fun w => .jp (nnnOf w)) ∧ DecodesAs 0xF000 0x2000 (fun w => .call (nnnOf w)) ∧
  ∀ (s : State) (nnn : Addr12),
    (∃ t, exec (.jp nnn) s = .next t ∧
      t.pc.toNat = nnn.toNat ∧ t.out = .quiet ∧ ChangesOnly [.pc] s t ∧
      (nnn.toNat = 4095 → t.fetch = .error 4096)) ∧
    (∃ t, exec (.call nnn) s = .next t ∧
      t.pc.toNat = nnn.toNat ∧ t.stack = (s.pc + 2) :: s.stack ∧ t.out = .quiet ∧
      ChangesOnly [.pc, .stack] s t)

/-- `SE Vx, byte` (R104) and `SNE Vx, byte` (R105). -/
def Obligations.ImmediateCompareSkips : Prop :=
  DecodesAs 0xF000 0x3000 (fun w => .se (xOf w) (nnOf w)) ∧
  DecodesAs 0xF000 0x4000 (fun w => .sne (xOf w) (nnOf w)) ∧
  ∀ (s : State) (x : Nibble) (nn : Byte),
    (∃ t, exec (.se x nn) s = .next t ∧
      t.pc = (if s.getV x = nn then s.pc + 4 else s.pc + 2) ∧ t.out = .quiet ∧ ChangesOnly [.pc] s t) ∧
    (∃ t, exec (.sne x nn) s = .next t ∧
      t.pc = (if s.getV x = nn then s.pc + 2 else s.pc + 4) ∧ t.out = .quiet ∧ ChangesOnly [.pc] s t)

/-- `SE Vx, Vy` (R106) and `SNE Vx, Vy` (R107), all sixteen words of each (decision D16, log 10). -/
def Obligations.RegisterCompareSkips : Prop :=
  DecodesAs 0xF000 0x5000 (fun w => .seReg (xOf w) (yOf w)) ∧
  DecodesAs 0xF000 0x9000 (fun w => .sneReg (xOf w) (yOf w)) ∧
  ∀ (s : State) (x y : Nibble),
    (∃ t, exec (.seReg x y) s = .next t ∧
      t.pc = (if s.getV x = s.getV y then s.pc + 4 else s.pc + 2) ∧ t.out = .quiet ∧
      ChangesOnly [.pc] s t) ∧
    (∃ t, exec (.sneReg x y) s = .next t ∧
      t.pc = (if s.getV x = s.getV y then s.pc + 2 else s.pc + 4) ∧ t.out = .quiet ∧
      ChangesOnly [.pc] s t)

/-- `JP Vx, addr` (R108): the sum is not reduced to 12 bits, and `JUMP_REG` selects `V[nnn[11:8]]` or `V[0]`. A sum
of 4095 or more makes the next fetch raise `OutOfBounds`. -/
def Obligations.JumpWithOffsetAddsTheRegister : Prop :=
  DecodesAs 0xF000 0xB000 (fun w => .jpOff (nnnOf w)) ∧
  ∀ (s : State) (nnn : Addr12), ∃ t, exec (.jpOff nnn) s = .next t ∧
    (s.cfg.jumpReg = .vx → ∀ x : Nibble, x.toNat = nnn.toNat / 256 →
      t.pc.toNat = nnn.toNat + (s.getV x).toNat) ∧
    (s.cfg.jumpReg = .v0 → t.pc.toNat = nnn.toNat + (s.getV 0).toNat) ∧
    (4095 ≤ t.pc.toNat → t.fetch = .error (max t.pc.toNat 4096)) ∧ t.out = .quiet ∧ ChangesOnly [.pc] s t

/-! ## Register load, arithmetic, logic, shift, random -/

/-- `LD Vx, byte` (R122) and `ADD Vx, byte` (R123): the sum wraps and no flag is written. -/
def Obligations.ImmediateLoadAndAdd : Prop :=
  DecodesAs 0xF000 0x6000 (fun w => .ldImm (xOf w) (nnOf w)) ∧
  DecodesAs 0xF000 0x7000 (fun w => .addImm (xOf w) (nnOf w)) ∧
  ∀ (s : State) (x : Nibble) (nn : Byte),
    (∃ t, exec (.ldImm x nn) s = .next t ∧ (∀ r, t.getV r = if r = x then nn else s.getV r) ∧
      t.pc = s.pc + 2 ∧ t.out = .quiet ∧ ChangesOnly [.v, .pc] s t) ∧
    (∃ t, exec (.addImm x nn) s = .next t ∧
      (∀ r, (t.getV r).toNat =
        if r = x then ((s.getV x).toNat + nn.toNat) % 256 else (s.getV r).toNat) ∧
      t.pc = s.pc + 2 ∧ t.out = .quiet ∧ ChangesOnly [.v, .pc] s t)

/-- `LD Vx, Vy` (R124), `OR` (R125), `AND` (R126), `XOR` (R127): bitwise, and `VF` is written only as the
destination. -/
def Obligations.MoveAndLogicWriteOnlyTheDestination : Prop :=
  DecodesAs 0xF00F 0x8000 (fun w => .ldReg (xOf w) (yOf w)) ∧
  DecodesAs 0xF00F 0x8001 (fun w => .orReg (xOf w) (yOf w)) ∧
  DecodesAs 0xF00F 0x8002 (fun w => .andReg (xOf w) (yOf w)) ∧
  DecodesAs 0xF00F 0x8003 (fun w => .xorReg (xOf w) (yOf w)) ∧
  ∀ (s : State) (x y : Nibble),
    (∃ t, exec (.ldReg x y) s = .next t ∧ (∀ r, t.getV r = if r = x then s.getV y else s.getV r) ∧
      t.pc = s.pc + 2 ∧ t.out = .quiet ∧ ChangesOnly [.v, .pc] s t) ∧
    (∃ t, exec (.orReg x y) s = .next t ∧
      (∀ r k, (t.getV r).getLsbD k =
        if r = x then ((s.getV x).getLsbD k || (s.getV y).getLsbD k) else (s.getV r).getLsbD k) ∧
      t.pc = s.pc + 2 ∧ t.out = .quiet ∧ ChangesOnly [.v, .pc] s t) ∧
    (∃ t, exec (.andReg x y) s = .next t ∧
      (∀ r k, (t.getV r).getLsbD k =
        if r = x then ((s.getV x).getLsbD k && (s.getV y).getLsbD k) else (s.getV r).getLsbD k) ∧
      t.pc = s.pc + 2 ∧ t.out = .quiet ∧ ChangesOnly [.v, .pc] s t) ∧
    (∃ t, exec (.xorReg x y) s = .next t ∧
      (∀ r k, (t.getV r).getLsbD k =
        if r = x then ((s.getV x).getLsbD k != (s.getV y).getLsbD k) else (s.getV r).getLsbD k) ∧
      t.pc = s.pc + 2 ∧ t.out = .quiet ∧ ChangesOnly [.v, .pc] s t)

/-- `ADD Vx, Vy` (R128): the sum wraps and `VF` is the carry. That the flag is written last, so that it remains
when `x = 0xF`, is decision D6 (R121; log 11). -/
def Obligations.AddRegisterSetsCarry : Prop :=
  DecodesAs 0xF00F 0x8004 (fun w => .addReg (xOf w) (yOf w)) ∧
  ∀ (s : State) (x y : Nibble), ∃ t, exec (.addReg x y) s = .next t ∧
    (∀ r, (t.getV r).toNat =
      if r = flagReg then (if 255 < (s.getV x).toNat + (s.getV y).toNat then 1 else 0)
      else if r = x then ((s.getV x).toNat + (s.getV y).toNat) % 256 else (s.getV r).toNat) ∧
    t.pc = s.pc + 2 ∧ t.out = .quiet ∧ ChangesOnly [.v, .pc] s t

/-- `SUB` (R129) and `SUBN` (R131): the difference wraps and `VF` is 1 when there is no borrow, equality
included; the flag is written last (decision D6, R121; log 11). -/
def Obligations.SubtractSetsNoBorrow : Prop :=
  DecodesAs 0xF00F 0x8005 (fun w => .sub (xOf w) (yOf w)) ∧
  DecodesAs 0xF00F 0x8007 (fun w => .subn (xOf w) (yOf w)) ∧
  ∀ (s : State) (x y : Nibble),
    (∃ t, exec (.sub x y) s = .next t ∧
      (∀ r, (t.getV r).toNat =
        if r = flagReg then (if (s.getV y).toNat ≤ (s.getV x).toNat then 1 else 0)
        else if r = x then ((s.getV x).toNat + 256 - (s.getV y).toNat) % 256 else (s.getV r).toNat) ∧
      t.pc = s.pc + 2 ∧ t.out = .quiet ∧ ChangesOnly [.v, .pc] s t) ∧
    (∃ t, exec (.subn x y) s = .next t ∧
      (∀ r, (t.getV r).toNat =
        if r = flagReg then (if (s.getV x).toNat ≤ (s.getV y).toNat then 1 else 0)
        else if r = x then ((s.getV y).toNat + 256 - (s.getV x).toNat) % 256 else (s.getV r).toNat) ∧
      t.pc = s.pc + 2 ∧ t.out = .quiet ∧ ChangesOnly [.v, .pc] s t)

/-- `SHR` (R130) and `SHL` (R132): by one position, `VF` is the bit shifted out, and the source is `V[x]` or
`V[y]` by `SHIFT_SRC`. The flag is written last (decision D6, R121; log 11) and the result goes to
`V[x]` alone (decision D26; log 23). -/
def Obligations.ShiftsMoveOneBitIntoTheFlag : Prop :=
  DecodesAs 0xF00F 0x8006 (fun w => .shr (xOf w) (yOf w)) ∧
  DecodesAs 0xF00F 0x800E (fun w => .shl (xOf w) (yOf w)) ∧
  ∀ (s : State) (x y : Nibble) (src : Byte),
    (s.cfg.shiftSrc = .x → src = s.getV x) → (s.cfg.shiftSrc = .y → src = s.getV y) →
    (∃ t, exec (.shr x y) s = .next t ∧
      (∀ r, (t.getV r).toNat =
        if r = flagReg then src.toNat % 2 else if r = x then src.toNat / 2 else (s.getV r).toNat) ∧
      t.pc = s.pc + 2 ∧ t.out = .quiet ∧ ChangesOnly [.v, .pc] s t) ∧
    (∃ t, exec (.shl x y) s = .next t ∧
      (∀ r, (t.getV r).toNat =
        if r = flagReg then src.toNat / 128
        else if r = x then src.toNat * 2 % 256 else (s.getV r).toNat) ∧
      t.pc = s.pc + 2 ∧ t.out = .quiet ∧ ChangesOnly [.v, .pc] s t)

/-- `RND` (R133): the step's draw AND the immediate byte; every result without a bit outside the immediate is
possible. -/
def Obligations.RandomIsTheMaskedDraw : Prop :=
  DecodesAs 0xF000 0xC000 (fun w => .rnd (xOf w) (nnOf w)) ∧
  ∀ (s : State) (x : Nibble) (nn : Byte),
    (∃ t, exec (.rnd x nn) s = .next t ∧ (∀ r, t.getV r = if r = x then s.rand &&& nn else s.getV r) ∧
      t.pc = s.pc + 2 ∧ t.out = .quiet ∧ ChangesOnly [.v, .pc] s t) ∧
    ∀ b : Byte, b &&& ~~~nn = 0 ↔ ∃ rand t, exec (.rnd x nn) { s with rand := rand } = .next t ∧ t.getV x = b

/-! ## Address register -/

/-- `LD I, addr` (R140) and `LD F, Vx` (R142): the whole byte is multiplied by 5. -/
def Obligations.IndexLoadsAddressAndGlyph : Prop :=
  DecodesAs 0xF000 0xA000 (fun w => .ldI (nnnOf w)) ∧ DecodesAs 0xF0FF 0xF029 (fun w => .ldF (xOf w)) ∧
  ∀ s : State,
    (∀ nnn : Addr12, ∃ t, exec (.ldI nnn) s = .next t ∧
      t.i.toNat = nnn.toNat ∧ t.pc = s.pc + 2 ∧ t.out = .quiet ∧ ChangesOnly [.i, .pc] s t) ∧
    (∀ x : Nibble, ∃ t, exec (.ldF x) s = .next t ∧
      t.i.toNat = (s.getV x).toNat * 5 ∧ t.pc = s.pc + 2 ∧ t.out = .quiet ∧ ChangesOnly [.i, .pc] s t)

/-- `ADD I, Vx` (R141): modulo 2^16 (decision D7; log 12) and no flag. -/
def Obligations.IndexAddWrapsWithoutFlag : Prop :=
  DecodesAs 0xF0FF 0xF01E (fun w => .addI (xOf w)) ∧
  ∀ (s : State) (x : Nibble), ∃ t, exec (.addI x) s = .next t ∧
    t.i.toNat = (s.i.toNat + (s.getV x).toNat) % 65536 ∧ t.pc = s.pc + 2 ∧ t.out = .quiet ∧
    ChangesOnly [.i, .pc] s t

/-! ## Display -/

/-- R150: a flip toggles the cell at the wrapped coordinates, returns its new value and leaves every other cell
alone. -/
def Obligations.FlipTogglesOneWrappedCell : Prop :=
  ∀ (fb : Framebuffer) (c r : Nat),
    fb.cell c r = (fb[r % 32]'(Nat.mod_lt _ (by decide)))[c % 64]'(Nat.mod_lt _ (by decide)) ∧
    (fb.flipCell c r).2 = (!fb.cell c r) ∧ (fb.flipCell c r).1.cell c r = (fb.flipCell c r).2 ∧
    ∀ c' r', c' < 64 → r' < 32 → (c' ≠ c % 64 ∨ r' ≠ r % 32) →
      (fb.flipCell c r).1.cell c' r' = fb.cell c' r'

/-- `CLS` (R151): every cell false, `VF` untouched, and `display_dirty` true (decision D13, log 17; the unexamined
nibble of its word is D16, log 10). -/
def Obligations.ClsClearsEveryCell : Prop :=
  DecodesAs 0xF0FF 0x00E0 (fun _ => .cls) ∧
  ∀ s : State, ∃ t, exec .cls s = .next t ∧ (∀ c r, t.fb.cell c r = false) ∧ t.pc = s.pc + 2 ∧
    t.out = ⟨true, none, none⟩ ∧ ChangesOnly [.fb, .pc] s t

/-- `DRW` (R153): inside memory each covered cell is toggled, no other cell changes, and `VF` is 1 exactly when a
covered cell was on; with a byte out of bounds nothing changes but `FAULT`. The bit and row order of a
sprite is decision D18 (R152; log 15), `display_dirty` D13 (log 17), the latched fault D5 (log 1). -/
def Obligations.DrwXorsTheSprite : Prop :=
  DecodesAs 0xF000 0xD000 (fun w => .drw (xOf w) (yOf w) (nOf w)) ∧
  (∀ (s : State) (x y n : Nibble), n.toNat = 0 ∨ s.base + n.toNat ≤ 4096 →
    ∃ t, exec (.drw x y n) s = .next t ∧
      (∀ c r, c < 64 → r < 32 →
        (SpriteCovers s x y n c r → t.fb.cell c r = !s.fb.cell c r) ∧
        (¬SpriteCovers s x y n c r → t.fb.cell c r = s.fb.cell c r)) ∧
      ((∃ c r, SpriteCovers s x y n c r ∧ s.fb.cell c r = true) → t.getV flagReg = 1) ∧
      ((¬∃ c r, SpriteCovers s x y n c r ∧ s.fb.cell c r = true) → t.getV flagReg = 0) ∧
      (∀ r, r ≠ flagReg → t.getV r = s.getV r) ∧ t.pc = s.pc + 2 ∧ t.out = ⟨true, none, none⟩ ∧
      ChangesOnly [.fb, .v, .pc] s t) ∧
  ∀ (s : State) (x y n : Nibble), 1 ≤ n.toNat → 4096 ≤ s.base + n.toNat - 1 →
    ∃ t, exec (.drw x y n) s = .next t ∧ t.fault = .outOfBounds ∧
      t.out = ⟨false, none, some (max s.base 4096)⟩ ∧ ChangesOnly [.fault] s t

/-- R154(a), derived there from R150 and R153: drawing the same sprite twice at the same place restores the
framebuffer, and each draw's flag is as R154 says. The hypothesis on `V[x]` and `V[y]` says that the
first draw's flag did not move the coordinates (decision D18, log 15, for which cells these are). -/
def Obligations.DrawingTwiceRestoresTheFramebuffer : Prop :=
  ∀ (s t : State) (x y n : Nibble), n.toNat = 0 ∨ s.base + n.toNat ≤ 4096 →
    exec (.drw x y n) s = .next t → t.getV x = s.getV x → t.getV y = s.getV y →
    ∃ u, exec (.drw x y n) t = .next u ∧ u.fb = s.fb ∧
      (t.getV flagReg = 1 ↔ ∃ c r, SpriteCovers s x y n c r ∧ s.fb.cell c r = true) ∧
      (u.getV flagReg = 1 ↔ ∃ c r, SpriteCovers s x y n c r ∧ s.fb.cell c r = false)

/-! ## Keys and timers -/

/-- `SKP` (R161) and `SKNP` (R162), on the level of the key at this step; an index of 16 or more names no key
(R160, decision D9; log 13). -/
def Obligations.KeySkipsFollowTheHeldKeys : Prop :=
  DecodesAs 0xF0FF 0xE09E (fun w => .skp (xOf w)) ∧ DecodesAs 0xF0FF 0xE0A1 (fun w => .sknp (xOf w)) ∧
  ∀ (s : State) (x : Nibble) (held : Bool),
    (∀ k : Fin 16, (s.getV x).toNat = k.val → held = s.keys[k]) →
    (16 ≤ (s.getV x).toNat → held = false) →
    (∃ t, exec (.skp x) s = .next t ∧
      t.pc = (if held then s.pc + 4 else s.pc + 2) ∧ t.out = .quiet ∧ ChangesOnly [.pc] s t) ∧
    (∃ t, exec (.sknp x) s = .next t ∧
      t.pc = (if held then s.pc + 2 else s.pc + 4) ∧ t.out = .quiet ∧ ChangesOnly [.pc] s t)

/-- `LD Vx, K` (R163): it enters the key-block without looking at the keys. The next step with no key held changes
nothing. The next with a key held latches the least one and does nothing else, and the step after that
fetches the instruction behind this one. A key held all along counts (conflict C1; log 25). The timers go on
in a `tick` as if no key were awaited (decision D23; log 16). -/
def Obligations.WaitForKeyBlocksUntilAKeyIsHeld : Prop :=
  DecodesAs 0xF0FF 0xF00A (fun w => .ldVxK (xOf w)) ∧
  ∀ (s : State) (x : Nibble), ∃ t, exec (.ldVxK x) s = .next t ∧
    t.blocked = some x ∧ t.pc = s.pc + 2 ∧ t.out = .quiet ∧ ChangesOnly [.blocked, .pc] s t ∧
    (∀ e, (t.tick e).blocked = some x ∧ (t.tick e).dt = (s.tick e).dt ∧ (t.tick e).st = (s.tick e).st ∧
      (t.tick e).acc = (s.tick e).acc) ∧
    (s.fault = .none → ∀ (keys : Vector Bool 16) (rand : Byte), ∃ u, t.cycle keys rand = .next u ∧
      u.out = .quiet ∧
      ((∀ k : Fin 16, keys[k] = false) → ChangesOnly [] (t.supply keys rand) u) ∧
      (∀ k : Fin 16, keys[k] = true → (∀ j : Fin 16, j < k → keys[j] = false) →
        u.getV x = BitVec.ofNat 8 k.val ∧ (∀ r, r ≠ x → u.getV r = s.getV r) ∧ u.blocked = none ∧
        u.pc = s.pc + 2 ∧ ChangesOnly [.v, .blocked] (t.supply keys rand) u ∧
        ∀ (hi lo : Byte) (keys' : Vector Bool 16) (rand' : Byte),
          s.mem.read (s.pc + 2).toNat = some hi → s.mem.read ((s.pc + 2).toNat + 1) = some lo →
          u.cycle keys' rand' = exec (decodeWord (wordOfBytes hi lo)) (u.supply keys' rand')))

/-- `LD Vx, DT` (R164). -/
def Obligations.DelayTimerIsReadUnchanged : Prop :=
  DecodesAs 0xF0FF 0xF007 (fun w => .ldVxDt (xOf w)) ∧
  ∀ (s : State) (x : Nibble), ∃ t, exec (.ldVxDt x) s = .next t ∧
    (∀ r, t.getV r = if r = x then s.dt else s.getV r) ∧ t.pc = s.pc + 2 ∧ t.out = .quiet ∧
    ChangesOnly [.v, .pc] s t

/-- `LD DT, Vx` (R165) and `LD ST, Vx` (R166): the accumulator is not reset (decision D23; log 16), and `sound_on`
follows `ST` at once. -/
def Obligations.TimerWritesLeaveTheAccumulator : Prop :=
  DecodesAs 0xF0FF 0xF015 (fun w => .ldDt (xOf w)) ∧ DecodesAs 0xF0FF 0xF018 (fun w => .ldSt (xOf w)) ∧
  ∀ (s : State) (x : Nibble),
    (∃ t, exec (.ldDt x) s = .next t ∧ t.dt = s.getV x ∧ t.acc = s.acc ∧ t.pc = s.pc + 2 ∧
      t.out = .quiet ∧ ChangesOnly [.dt, .pc] s t) ∧
    (∃ t, exec (.ldSt x) s = .next t ∧ t.st = s.getV x ∧ t.acc = s.acc ∧
      (t.soundOn = true ↔ 0 < (s.getV x).toNat) ∧ t.pc = s.pc + 2 ∧
      t.out = .quiet ∧ ChangesOnly [.st, .pc] s t)

/-- `sound_on` is `ST > 0` (R96); so a `tick` leaves it on exactly when fewer intervals have passed than `ST`
holds (R93; one decrement for every whole interval is decision D3, log 16). -/
def Obligations.SoundFollowsTheSoundTimer : Prop :=
  ∀ s : State, (s.soundOn = true ↔ 0 < s.st.toNat) ∧
    ∀ e, s.fault = .none → 0 < s.cfg.tickInterval →
      ((s.tick e).soundOn = true ↔ (s.acc + e) / s.cfg.tickInterval < s.st.toNat)

/-- `tick` (R93): the closed form is the loop of R93, one decrement of each non-zero counter for every whole
interval in the accumulator (decision D3; log 16). -/
def Obligations.TickIsTheLoopOfWholeIntervals : Prop :=
  ∀ (s : State) (e : Nat), s.fault = .none → 0 < s.cfg.tickInterval →
    s.tick e = State.tickLoop (s.acc + e) { s with acc := s.acc + e }

/-- Elapsed time adds up however it is delivered (R93: no drift; decision D3, log 16), and `tick` changes the
timers and the accumulator alone, in a key-block too. -/
def Obligations.TicksAddUp : Prop :=
  ∀ (s : State) (a b : Nat),
    (0 < s.cfg.tickInterval → (s.tick a).tick b = s.tick (a + b)) ∧
    ChangesOnly [.dt, .st, .acc] s (s.tick a) ∧ (s.tick a).out = s.out

/-- R94, derived there from R93: from an empty accumulator, increments that sum to exactly one interval decrement
each timer by exactly 1, never below 0, and only the increment that completes the interval does. -/
def Obligations.OneIntervalDecrementsEachTimerOnce : Prop :=
  ∀ (s : State) (es : List Nat) (e : Nat), s.fault = .none → s.acc = 0 →
    0 < s.cfg.tickInterval → 0 < e → es.sum + e = s.cfg.tickInterval →
      (es.foldl State.tick s).dt = s.dt ∧ (es.foldl State.tick s).st = s.st ∧
      ((es ++ [e]).foldl State.tick s).dt.toNat = s.dt.toNat - 1 ∧
      ((es ++ [e]).foldl State.tick s).st.toNat = s.st.toNat - 1 ∧
      ((es ++ [e]).foldl State.tick s).acc = 0

/-! ## Memory transfer -/

/-- `LD B, Vx` (R180): the three digits at `I`, `I + 1`, `I + 2`, every other byte as before; with a byte out of
bounds nothing changes but `FAULT` (R183, decision D5; log 1). -/
def Obligations.DecimalDigitsAreStored : Prop :=
  DecodesAs 0xF0FF 0xF033 (fun w => .ldB (xOf w)) ∧
  (∀ (s : State) (x : Nibble), s.base + 2 < 4096 → ∃ t, exec (.ldB x) s = .next t ∧
    t.mem.read s.base = some (BitVec.ofNat 8 ((s.getV x).toNat / 100)) ∧
    t.mem.read (s.base + 1) = some (BitVec.ofNat 8 ((s.getV x).toNat / 10 % 10)) ∧
    t.mem.read (s.base + 2) = some (BitVec.ofNat 8 ((s.getV x).toNat % 10)) ∧
    (∀ a, a < s.base ∨ s.base + 2 < a → t.mem.read a = s.mem.read a) ∧
    t.pc = s.pc + 2 ∧ t.out = .quiet ∧ ChangesOnly [.mem, .pc] s t) ∧
  ∀ (s : State) (x : Nibble), 4096 ≤ s.base + 2 → ∃ t, exec (.ldB x) s = .next t ∧
    t.fault = .outOfBounds ∧ t.out = ⟨false, none, some (max s.base 4096)⟩ ∧ ChangesOnly [.fault] s t

/-- `LD [I], Vx` (R181): `V[0]` to `V[x]` at `I` to `I + x`, every other byte as before, and `I` advanced by `x + 1`
exactly when `LOADSTORE_INC` (decision D10; log 14); with a byte out of bounds nothing changes but
`FAULT` (R183, decision D5; log 1). -/
def Obligations.RegistersAreStoredAtTheIndex : Prop :=
  DecodesAs 0xF0FF 0xF055 (fun w => .stRegs (xOf w)) ∧
  (∀ (s : State) (x : Nibble), s.base + x.toNat < 4096 → ∃ t, exec (.stRegs x) s = .next t ∧
    (∀ k : Nibble, k.toNat ≤ x.toNat → t.mem.read (s.base + k.toNat) = some (s.getV k)) ∧
    (∀ a, a < s.base ∨ s.base + x.toNat < a → t.mem.read a = s.mem.read a) ∧
    t.i.toNat = (if s.cfg.loadStoreInc then s.base + x.toNat + 1 else s.base) ∧
    t.pc = s.pc + 2 ∧ t.out = .quiet ∧ ChangesOnly [.mem, .i, .pc] s t) ∧
  ∀ (s : State) (x : Nibble), 4096 ≤ s.base + x.toNat → ∃ t, exec (.stRegs x) s = .next t ∧
    t.fault = .outOfBounds ∧ t.out = ⟨false, none, some (max s.base 4096)⟩ ∧ ChangesOnly [.fault] s t

/-- `LD Vx, [I]` (R182): the bytes at `I` to `I + x` into `V[0]` to `V[x]`, the registers above unchanged, `I` as in
R181 (decision D10; log 14); with a byte out of bounds nothing changes but `FAULT` (R183, decision D5;
log 1). -/
def Obligations.RegistersAreLoadedFromTheIndex : Prop :=
  DecodesAs 0xF0FF 0xF065 (fun w => .ldRegs (xOf w)) ∧
  (∀ (s : State) (x : Nibble), s.base + x.toNat < 4096 → ∃ t, exec (.ldRegs x) s = .next t ∧
    (∀ k : Nibble, k.toNat ≤ x.toNat → s.mem.read (s.base + k.toNat) = some (t.getV k)) ∧
    (∀ k : Nibble, x.toNat < k.toNat → t.getV k = s.getV k) ∧
    t.i.toNat = (if s.cfg.loadStoreInc then s.base + x.toNat + 1 else s.base) ∧
    t.pc = s.pc + 2 ∧ t.out = .quiet ∧ ChangesOnly [.v, .i, .pc] s t) ∧
  ∀ (s : State) (x : Nibble), 4096 ≤ s.base + x.toNat → ∃ t, exec (.ldRegs x) s = .next t ∧
    t.fault = .outOfBounds ∧ t.out = ⟨false, none, some (max s.base 4096)⟩ ∧ ChangesOnly [.fault] s t

/-- R53, derived there from R51: the next fetch sees what `ST_REGS` or `LD_B` has just stored over the next
instruction, whichever of its two bytes the store covers, and the old byte where it covers none. -/
def Obligations.StoresAreSeenByTheNextFetch : Prop :=
  ∀ (s : State) (x : Nibble), s.pc.toNat + 3 < 4096 →
    (s.base + x.toNat < 4096 → ∃ t w hi lo, exec (.stRegs x) s = .next t ∧ t.fetch = .ok w ∧
      w.toNat = BitVec.toNat hi * 256 + BitVec.toNat lo ∧
      StoredByte s.mem s.base (x.toNat + 1) (fun k => s.getV (BitVec.ofNat 4 k)) (s.pc.toNat + 2) hi ∧
      StoredByte s.mem s.base (x.toNat + 1) (fun k => s.getV (BitVec.ofNat 4 k)) (s.pc.toNat + 3) lo) ∧
    (s.base + 2 < 4096 → ∃ t w hi lo, exec (.ldB x) s = .next t ∧ t.fetch = .ok w ∧
      w.toNat = BitVec.toNat hi * 256 + BitVec.toNat lo ∧
      StoredByte s.mem s.base 3 (fun k => BitVec.ofNat 8 ((s.getV x).toNat / 10 ^ (2 - k) % 10))
        (s.pc.toNat + 2) hi ∧
      StoredByte s.mem s.base 3 (fun k => BitVec.ofNat 8 ((s.getV x).toNat / 10 ^ (2 - k) % 10))
        (s.pc.toNat + 3) lo)

/-! ## Unrecognised words -/

/-- R190 and R204: an unrecognised word decodes to itself, and executing it changes nothing but `PC` and reports the
word with the address it was fetched from. -/
def Obligations.UnknownWordIsAReportedNoOp : Prop :=
  (∀ w : Word, unrecognised w = true → decodeWord w = .unknown w) ∧
  ∀ (s : State) (w : Word), ∃ t, exec (.unknown w) s = .next t ∧
    t.pc = s.pc + 2 ∧ t.out = ⟨false, some ⟨w, s.pc⟩, none⟩ ∧ ChangesOnly [.pc] s t

/-! ## Reset -/

/-- The state after reset with no program (R31): memory holds the font and zeros, `PC` is 0x200. The other values
are decisions D12 and D5 (log 8, 1), the font bytes general knowledge (D19; log 9), the configuration D11
(log 6). -/
def Obligations.ResetStateIsAsListed : Prop :=
  (∀ a, State.reset.mem.read a =
    if a < 80 then some (Config.defaultFont.getD a 0) else if a < 4096 then some 0 else none) ∧
  State.reset.pc = 0x200 ∧ (∀ r, State.reset.getV r = 0) ∧ State.reset.i = 0 ∧
  State.reset.stack = [] ∧ State.reset.dt = 0 ∧ State.reset.st = 0 ∧ State.reset.acc = 0 ∧
  (∀ c r, State.reset.fb.cell c r = false) ∧ (∀ k : Fin 16, State.reset.keys[k] = false) ∧
  State.reset.blocked = none ∧ State.reset.fault = .none ∧
  State.reset.cfg.shiftSrc = .x ∧ State.reset.cfg.jumpReg = .vx ∧ State.reset.cfg.loadStoreInc = false

/-- The `reset` transaction (R230): from any state, an image that fits gives zeros, then the font, then the program,
and every other item at its reset value (decision D12; log 8), in the configuration supplied. A positive
`TICK_INTERVAL` is R91's (log 7). -/
def Obligations.ResetLoadsFontThenProgram : Prop :=
  ∀ (s : State) (font program : List Byte) (offset : Word) (cfg : Config.Settings),
    font.length = 80 → offset.toNat + program.length ≤ 4096 → 0 < cfg.tickInterval →
    ∃ t, s.resetWith font program offset cfg = .next t ∧
      (∀ a, a < 4096 → t.mem.read a = some
        (if offset.toNat ≤ a ∧ a < offset.toNat + program.length then program.getD (a - offset.toNat) 0
         else font.getD a 0)) ∧
      t.cfg = cfg ∧ t.out = .quiet ∧
      ∀ it, it ≠ .mem → Keeps it State.reset t

/-- An image that does not fit is refused and yields no machine (R232, decision D25; log 20). -/
def Obligations.ResetRefusesAnImageThatDoesNotFit : Prop :=
  ∀ (s : State) (font program : List Byte) (offset : Word) (cfg : Config.Settings),
    (font.length ≠ 80 ∨ 4096 < offset.toNat + program.length) ↔
      s.resetWith font program offset cfg = .refused .imageDoesNotFit

/-! ## Invariants -/

/-- The reset state satisfies the invariant of the machine. All three parts rest on choices: the canonical list that
holds memory (log 18, with log 9 for the unlisted bytes), `ACC = 0` and the empty `STACK` of decision D12
(log 8), and the interval (log 7); `PC` is 0x200 by R31. -/
def Obligations.ResetSatisfiesTheInvariant : Prop := State.reset.Inv

/-- Every step keeps memory in its canonical form, so that equal memories are equal data. The form is the model's own
way to hold `MEM` (log 18; log 9 for what an unlisted byte reads as); that it lists nothing from 4096 on is
R40. -/
def Obligations.StepKeepsMemoryCanonical : Prop :=
  ∀ s t : State, s.MemInv → step s = .next t → t.MemInv

/-- Every step keeps less than one interval in the accumulator (R21; the unit of time and the
positive interval are log 7, one decrement for every whole interval decision D3, log 16). -/
def Obligations.StepKeepsLessThanOneInterval : Prop :=
  ∀ s t : State, s.TimeInv → step s = .next t → t.TimeInv

/-- Every step keeps `PC` at most 0x10FE and every return address at most 4096, so the additions to `PC` never wrap
(R15, R101, R108). That additions to `PC` are modulo 2^16 is decision D21 (log 24). -/
def Obligations.StepKeepsControlInRange : Prop :=
  ∀ s t : State, s.FlowInv → step s = .next t → t.FlowInv
end

