-- ==== Sys2Proof/Laws/Decode.lean ====
section
/-! SUPPORT. The fields of packed words and what a mask and match (spec/30_encoding.md R65) say of the
fields. -/

namespace Sys2Proof

/-! ### Fields as numbers (R61, R62) -/

theorem opOf_toNat (w : Word) : (opOf w).toNat = w.toNat / 4096 := by
  have := w.isLt
  simp only [opOf, BitVec.extractLsb'_toNat, Nat.shiftRight_eq_div_pow]
  omega

theorem xOf_toNat (w : Word) : (xOf w).toNat = w.toNat / 256 % 16 := by
  simp [xOf, BitVec.extractLsb'_toNat, Nat.shiftRight_eq_div_pow]

theorem yOf_toNat (w : Word) : (yOf w).toNat = w.toNat / 16 % 16 := by
  simp [yOf, BitVec.extractLsb'_toNat, Nat.shiftRight_eq_div_pow]

theorem nOf_toNat (w : Word) : (nOf w).toNat = w.toNat % 16 := by
  simp [nOf, BitVec.extractLsb'_toNat]

theorem nnOf_toNat (w : Word) : (nnOf w).toNat = w.toNat % 256 := by
  simp [nnOf, BitVec.extractLsb'_toNat]

theorem nnnOf_toNat (w : Word) : (nnnOf w).toNat = w.toNat % 4096 := by
  simp [nnnOf, BitVec.extractLsb'_toNat]

/-! ### Packed words -/

theorem packXYN_toNat (op x y n : Nibble) :
    (packXYN op x y n).toNat = op.toNat * 4096 + (x.toNat * 256 + y.toNat * 16 + n.toNat) := by
  have := op.isLt
  have := x.isLt
  have := y.isLt
  have := n.isLt
  simp only [packXYN, BitVec.toNat_ofNat]
  omega

theorem packXNN_toNat (op x : Nibble) (nn : Byte) :
    (packXNN op x nn).toNat = op.toNat * 4096 + (x.toNat * 256 + nn.toNat) := by
  have := op.isLt
  have := x.isLt
  have := nn.isLt
  simp only [packXNN, BitVec.toNat_ofNat]
  omega

theorem packNNN_toNat (op : Nibble) (nnn : Addr12) :
    (packNNN op nnn).toNat = op.toNat * 4096 + nnn.toNat := by
  have := op.isLt
  have := nnn.isLt
  simp only [packNNN, BitVec.toNat_ofNat]
  omega

@[simp] theorem opOf_packXYN (op x y n : Nibble) : opOf (packXYN op x y n) = op := by
  apply BitVec.eq_of_toNat_eq
  have := x.isLt
  have := y.isLt
  have := n.isLt
  rw [opOf_toNat, packXYN_toNat]
  omega

@[simp] theorem xOf_packXYN (op x y n : Nibble) : xOf (packXYN op x y n) = x := by
  apply BitVec.eq_of_toNat_eq
  have := x.isLt
  have := y.isLt
  have := n.isLt
  rw [xOf_toNat, packXYN_toNat]
  omega

@[simp] theorem yOf_packXYN (op x y n : Nibble) : yOf (packXYN op x y n) = y := by
  apply BitVec.eq_of_toNat_eq
  have := y.isLt
  have := n.isLt
  rw [yOf_toNat, packXYN_toNat]
  omega

@[simp] theorem nOf_packXYN (op x y n : Nibble) : nOf (packXYN op x y n) = n := by
  apply BitVec.eq_of_toNat_eq
  have := n.isLt
  rw [nOf_toNat, packXYN_toNat]
  omega

@[simp] theorem opOf_packXNN (op x : Nibble) (nn : Byte) : opOf (packXNN op x nn) = op := by
  apply BitVec.eq_of_toNat_eq
  have := x.isLt
  have := nn.isLt
  rw [opOf_toNat, packXNN_toNat]
  omega

@[simp] theorem xOf_packXNN (op x : Nibble) (nn : Byte) : xOf (packXNN op x nn) = x := by
  apply BitVec.eq_of_toNat_eq
  have := x.isLt
  have := nn.isLt
  rw [xOf_toNat, packXNN_toNat]
  omega

@[simp] theorem nnOf_packXNN (op x : Nibble) (nn : Byte) : nnOf (packXNN op x nn) = nn := by
  apply BitVec.eq_of_toNat_eq
  have := nn.isLt
  rw [nnOf_toNat, packXNN_toNat]
  omega

@[simp] theorem opOf_packNNN (op : Nibble) (nnn : Addr12) : opOf (packNNN op nnn) = op := by
  apply BitVec.eq_of_toNat_eq
  have := nnn.isLt
  rw [opOf_toNat, packNNN_toNat]
  omega

@[simp] theorem nnnOf_packNNN (op : Nibble) (nnn : Addr12) : nnnOf (packNNN op nnn) = nnn := by
  apply BitVec.eq_of_toNat_eq
  have := nnn.isLt
  rw [nnnOf_toNat, packNNN_toNat]
  omega

/-! ### Masks (R65) -/

theorem opOf_and (w m : Word) : opOf (w &&& m) = opOf w &&& opOf m := by
  simp [opOf, BitVec.extractLsb'_and]

theorem nOf_and (w m : Word) : nOf (w &&& m) = nOf w &&& nOf m := by
  simp [nOf, BitVec.extractLsb'_and]

theorem nnOf_and (w m : Word) : nnOf (w &&& m) = nnOf w &&& nnOf m := by
  simp [nnOf, BitVec.extractLsb'_and]

/-- A word is given by `op`, `x` and `nn`. -/
theorem word_eq_iff_xnn (w w' : Word) : w = w' ↔ opOf w = opOf w' ∧ xOf w = xOf w' ∧ nnOf w = nnOf w' := by
  constructor
  · rintro rfl
    simp
  · rintro ⟨h1, h2, h3⟩
    have h1 := congrArg BitVec.toNat h1
    have h2 := congrArg BitVec.toNat h2
    have h3 := congrArg BitVec.toNat h3
    rw [opOf_toNat, opOf_toNat] at h1
    rw [xOf_toNat, xOf_toNat] at h2
    rw [nnOf_toNat, nnOf_toNat] at h3
    apply BitVec.eq_of_toNat_eq
    omega

theorem xOf_and (w m : Word) : xOf (w &&& m) = xOf w &&& xOf m := by
  simp [xOf, BitVec.extractLsb'_and]

/-- A row keyed on `op` alone. -/
theorem mask_op (w : Word) (op : Nibble) : w &&& 0xF000#16 = packXNN op 0 0 ↔ opOf w = op := by
  rw [word_eq_iff_xnn, opOf_and, xOf_and, nnOf_and, opOf_packXNN, xOf_packXNN, nnOf_packXNN]
  have h1 : opOf 0xF000#16 = BitVec.allOnes 4 := by decide
  have h2 : xOf 0xF000#16 = 0 := by decide
  have h3 : nnOf 0xF000#16 = 0 := by decide
  simp [h1, h2, h3, -BitVec.reduceAllOnes]

/-- A row keyed on `op` and `nn`. -/
theorem mask_op_nn (w : Word) (op : Nibble) (nn : Byte) :
    w &&& 0xF0FF#16 = packXNN op 0 nn ↔ opOf w = op ∧ nnOf w = nn := by
  rw [word_eq_iff_xnn, opOf_and, xOf_and, nnOf_and, opOf_packXNN, xOf_packXNN, nnOf_packXNN]
  have h1 : opOf 0xF0FF#16 = BitVec.allOnes 4 := by decide
  have h2 : xOf 0xF0FF#16 = 0 := by decide
  have h3 : nnOf 0xF0FF#16 = BitVec.allOnes 8 := by decide
  simp [h1, h2, h3, -BitVec.reduceAllOnes]

/-- A word is given by its four nibbles. -/
theorem word_eq_iff_xyn (w w' : Word) :
    w = w' ↔ opOf w = opOf w' ∧ xOf w = xOf w' ∧ yOf w = yOf w' ∧ nOf w = nOf w' := by
  constructor
  · rintro rfl
    simp
  · rintro ⟨h1, h2, h3, h4⟩
    have h1 := congrArg BitVec.toNat h1
    have h2 := congrArg BitVec.toNat h2
    have h3 := congrArg BitVec.toNat h3
    have h4 := congrArg BitVec.toNat h4
    rw [opOf_toNat, opOf_toNat] at h1
    rw [xOf_toNat, xOf_toNat] at h2
    rw [yOf_toNat, yOf_toNat] at h3
    rw [nOf_toNat, nOf_toNat] at h4
    apply BitVec.eq_of_toNat_eq
    omega

theorem yOf_and (w m : Word) : yOf (w &&& m) = yOf w &&& yOf m := by
  simp [yOf, BitVec.extractLsb'_and]

/-- A row keyed on `op` and `n`. -/
theorem mask_op_n (w : Word) (op n : Nibble) :
    w &&& 0xF00F#16 = packXYN op 0 0 n ↔ opOf w = op ∧ nOf w = n := by
  rw [word_eq_iff_xyn, opOf_and, xOf_and, yOf_and, nOf_and, opOf_packXYN, xOf_packXYN, yOf_packXYN,
    nOf_packXYN]
  have h1 : opOf 0xF00F#16 = BitVec.allOnes 4 := by decide
  have h2 : xOf 0xF00F#16 = 0 := by decide
  have h3 : yOf 0xF00F#16 = 0 := by decide
  have h4 : nOf 0xF00F#16 = BitVec.allOnes 4 := by decide
  simp [h1, h2, h3, h4, -BitVec.reduceAllOnes]

/-! ### Bytes of a word (spec/20_memory.md R44) -/

@[simp] theorem wordOfBytes_hi_lo (w : Word) : wordOfBytes (hiByte w) (loByte w) = w := by
  apply BitVec.eq_of_toNat_eq
  have := w.isLt
  simp only [wordOfBytes, hiByte, loByte, BitVec.toNat_ofNat, BitVec.extractLsb'_toNat,
    Nat.shiftRight_eq_div_pow]
  omega

/-! ### The first level of dispatch, case by case (R64) -/

/-- The sixteen values of a nibble. -/
theorem nibble_cases : ∀ a : Nibble, a = 0#4 ∨ a = 1#4 ∨ a = 2#4 ∨ a = 3#4 ∨ a = 4#4 ∨ a = 5#4 ∨ a = 6#4 ∨
    a = 7#4 ∨ a = 8#4 ∨ a = 9#4 ∨ a = 10#4 ∨ a = 11#4 ∨ a = 12#4 ∨ a = 13#4 ∨ a = 14#4 ∨ a = 15#4 := by
  decide

theorem decodeWord_of_op0 {w : Word} (h : opOf w = 0#4) : decodeWord w = decodeOp0 w := by
  simp [decodeWord, h]

theorem decodeWord_of_op1 {w : Word} (h : opOf w = 1#4) : decodeWord w = .jp (nnnOf w) := by
  simp [decodeWord, h]

theorem decodeWord_of_op2 {w : Word} (h : opOf w = 2#4) : decodeWord w = .call (nnnOf w) := by
  simp [decodeWord, h]

theorem decodeWord_of_op3 {w : Word} (h : opOf w = 3#4) : decodeWord w = .se (xOf w) (nnOf w) := by
  simp [decodeWord, h]

theorem decodeWord_of_op4 {w : Word} (h : opOf w = 4#4) : decodeWord w = .sne (xOf w) (nnOf w) := by
  simp [decodeWord, h]

theorem decodeWord_of_op5 {w : Word} (h : opOf w = 5#4) : decodeWord w = .seReg (xOf w) (yOf w) := by
  simp [decodeWord, h]

theorem decodeWord_of_op6 {w : Word} (h : opOf w = 6#4) : decodeWord w = .ldImm (xOf w) (nnOf w) := by
  simp [decodeWord, h]

theorem decodeWord_of_op7 {w : Word} (h : opOf w = 7#4) : decodeWord w = .addImm (xOf w) (nnOf w) := by
  simp [decodeWord, h]

theorem decodeWord_of_op8 {w : Word} (h : opOf w = 8#4) : decodeWord w = decodeOp8 w := by
  simp [decodeWord, h]

theorem decodeWord_of_op9 {w : Word} (h : opOf w = 9#4) : decodeWord w = .sneReg (xOf w) (yOf w) := by
  simp [decodeWord, h]

theorem decodeWord_of_op10 {w : Word} (h : opOf w = 10#4) : decodeWord w = .ldI (nnnOf w) := by
  simp [decodeWord, h]

theorem decodeWord_of_op11 {w : Word} (h : opOf w = 11#4) : decodeWord w = .jpOff (nnnOf w) := by
  simp [decodeWord, h]

theorem decodeWord_of_op12 {w : Word} (h : opOf w = 12#4) : decodeWord w = .rnd (xOf w) (nnOf w) := by
  simp [decodeWord, h]

theorem decodeWord_of_op13 {w : Word} (h : opOf w = 13#4) : decodeWord w = .drw (xOf w) (yOf w) (nOf w) := by
  simp [decodeWord, h]

theorem decodeWord_of_op14 {w : Word} (h : opOf w = 14#4) : decodeWord w = decodeOpE w := by
  simp [decodeWord, h]

theorem decodeWord_of_op15 {w : Word} (h : opOf w = 15#4) : decodeWord w = decodeOpF w := by
  simp [decodeWord, h]

/-- A decoded `unknown` holds the word itself. -/
theorem decodeWord_unknown {w w' : Word} (h : decodeWord w = .unknown w') : w' = w := by
  have h0 : decodeOp0 w = .unknown w' → w' = w := by
    intro h
    unfold decodeOp0 at h
    repeat' split at h
    all_goals first | exact (Instr.unknown.inj h).symm | cases h
  have h8 : decodeOp8 w = .unknown w' → w' = w := by
    intro h
    unfold decodeOp8 at h
    repeat' split at h
    all_goals first | exact (Instr.unknown.inj h).symm | cases h
  have hE : decodeOpE w = .unknown w' → w' = w := by
    intro h
    unfold decodeOpE at h
    repeat' split at h
    all_goals first | exact (Instr.unknown.inj h).symm | cases h
  have hF : decodeOpF w = .unknown w' → w' = w := by
    intro h
    unfold decodeOpF at h
    repeat' split at h
    all_goals first | exact (Instr.unknown.inj h).symm | cases h
  rcases nibble_cases (opOf w) with e | e | e | e | e | e | e | e | e | e | e | e | e | e | e | e
  · rw [decodeWord_of_op0 e] at h
    exact h0 h
  · rw [decodeWord_of_op1 e] at h
    cases h
  · rw [decodeWord_of_op2 e] at h
    cases h
  · rw [decodeWord_of_op3 e] at h
    cases h
  · rw [decodeWord_of_op4 e] at h
    cases h
  · rw [decodeWord_of_op5 e] at h
    cases h
  · rw [decodeWord_of_op6 e] at h
    cases h
  · rw [decodeWord_of_op7 e] at h
    cases h
  · rw [decodeWord_of_op8 e] at h
    exact h8 h
  · rw [decodeWord_of_op9 e] at h
    cases h
  · rw [decodeWord_of_op10 e] at h
    cases h
  · rw [decodeWord_of_op11 e] at h
    cases h
  · rw [decodeWord_of_op12 e] at h
    cases h
  · rw [decodeWord_of_op13 e] at h
    cases h
  · rw [decodeWord_of_op14 e] at h
    exact hE h
  · rw [decodeWord_of_op15 e] at h
    exact hF h

end Sys2Proof
end

