-- ==== Sys2Proof/Laws/Memory.lean ====
section
/-! SUPPORT. The laws of memory: reading after writing, the canonical form, and the bounds check. -/

namespace Sys2Proof.Machine

open Sys2Proof

/-! ### Reading after writing (spec/20_memory.md R42, R43) -/

theorem Memory.get_erase (m : Memory) (a k : Nat) :
    (m.erase a).get k = if k = a then Memory.unlisted k else m.get k := by
  induction m with
  | nil => simp [Memory.erase, Memory.get]
  | cons e m ih =>
    obtain ⟨j, c⟩ := e
    have ih' : Memory.get (List.filter (fun c => c.1 != a) m) k = _ := ih
    by_cases hj : j = a
    · subst hj
      by_cases hk : k = j
      · simp [Memory.erase, hk] at ih' ⊢
        exact ih'
      · simp [Memory.erase, Memory.get, hk, Ne.symm hk, ih']
    · by_cases hk : j = k
      · subst hk
        simp [Memory.erase, Memory.get, hj]
      · simp [Memory.erase, Memory.get, hj, hk, ih']

/-- An address that is erased is not listed. -/
theorem Memory.erase_fresh (m : Memory) (a : Nat) : ∀ e ∈ m.erase a, e.1 ≠ a := by
  simp [Memory.erase]

theorem Memory.get_insert {m : Memory} {a : Nat} (h : ∀ e ∈ m, e.1 ≠ a) (b : Byte) (k : Nat) :
    (m.insert a b).get k = if k = a then b else m.get k := by
  induction m with
  | nil =>
    by_cases hk : k = a
    · simp [Memory.insert, Memory.get, hk]
    · simp [Memory.insert, Memory.get, hk, Ne.symm hk]
  | cons e m ih =>
    obtain ⟨j, c⟩ := e
    have hj : j ≠ a := h (j, c) (by simp)
    have ih' := ih fun e he => h e (by simp [he])
    by_cases hlt : a < j
    · by_cases hk : k = a
      · simp [Memory.insert, hlt, Memory.get, hk]
      · simp [Memory.insert, hlt, Memory.get, hk, Ne.symm hk]
    · by_cases hk : j = k
      · subst hk
        simp [Memory.insert, hlt, Memory.get, hj]
      · simp [Memory.insert, hlt, Memory.get, hk, ih']

/-- A store is read back at its address and leaves every other address alone. -/
theorem Memory.get_set (m : Memory) (a k : Nat) (b : Byte) :
    (m.set a b).get k = if k = a then b else m.get k := by
  unfold Memory.set
  split
  · rename_i h
    rw [Memory.get_erase]
    split
    · rename_i hk
      rw [hk, h]
    · rfl
  · rw [Memory.get_insert (Memory.erase_fresh m a), Memory.get_erase]
    split <;> rfl

/-- What a store of consecutive bytes leaves at each address. -/
theorem Memory.get_store (m : Memory) (a k : Nat) (bs : List Byte) :
    (m.store a bs).get k = if a ≤ k ∧ k < a + bs.length then bs.getD (k - a) 0 else m.get k := by
  induction bs generalizing m a with
  | nil =>
    have : ¬(a ≤ k ∧ k < a) := by omega
    simp [Memory.store, this]
  | cons b bs ih =>
    rw [Memory.store, ih, Memory.get_set, List.length_cons]
    by_cases hk : k = a
    · subst hk
      have h2 : k ≤ k ∧ k < k + (bs.length + 1) := by omega
      simp [h2]
    · by_cases hr : a + 1 ≤ k ∧ k < a + 1 + bs.length
      · have h2 : a ≤ k ∧ k < a + (bs.length + 1) := by omega
        have h3 : k - a = (k - (a + 1)) + 1 := by omega
        rw [if_pos hr, if_pos h2, h3, List.getD_cons_succ]
      · have h2 : ¬(a ≤ k ∧ k < a + (bs.length + 1)) := by omega
        rw [if_neg hr, if_neg hk, if_neg h2]

/-! ### The bounds check (spec/20_memory.md R41 to R44) -/

theorem Memory.firstOutside_eq_none {a len : Nat} :
    Memory.firstOutside a len = none ↔ len = 0 ∨ a + len ≤ 4096 := by
  unfold Memory.firstOutside
  split <;> simp_all

theorem Memory.firstOutside_eq_some {a len b : Nat} :
    Memory.firstOutside a len = some b ↔ len ≠ 0 ∧ 4096 < a + len ∧ b = max a 4096 := by
  simp only [Memory.firstOutside, Config.memSize]
  split
  · simp only [reduceCtorEq, false_iff]
    omega
  · simp only [Option.some.injEq]
    constructor
    · intro h
      exact ⟨by omega, by omega, h.symm⟩
    · intro h
      exact h.2.2.symm

theorem Memory.read_of_lt (m : Memory) {a : Nat} (h : a < 4096) : m.read a = some (m.get a) := by
  have hn : Memory.firstOutside a 1 = none := Memory.firstOutside_eq_none.2 (by omega)
  simp [Memory.read, hn]

theorem Memory.read_of_ge (m : Memory) {a : Nat} (h : 4096 ≤ a) : m.read a = none := by
  have hs : Memory.firstOutside a 1 = some (max a 4096) :=
    Memory.firstOutside_eq_some.2 ⟨by omega, by omega, rfl⟩
  simp [Memory.read, hs]

theorem Memory.read_eq_some {m : Memory} {a : Nat} {b : Byte} :
    m.read a = some b ↔ a < 4096 ∧ m.get a = b := by
  by_cases h : a < 4096
  · simp [Memory.read_of_lt m h, h]
  · simp [Memory.read_of_ge m (Nat.le_of_not_lt h), h]

/-- Memories that agree byte by byte read the same. -/
theorem Memory.read_congr {m m' : Memory} {a : Nat} (h : m'.get a = m.get a) : m'.read a = m.read a := by
  by_cases ha : a < 4096
  · rw [Memory.read_of_lt _ ha, Memory.read_of_lt _ ha, h]
  · rw [Memory.read_of_ge _ (Nat.le_of_not_lt ha), Memory.read_of_ge _ (Nat.le_of_not_lt ha)]

/-! ### Slices -/

@[simp] theorem Memory.length_slice (m : Memory) (a len : Nat) : (m.slice a len).length = len := by
  induction len generalizing a with
  | zero => rfl
  | succ len ih => simp [Memory.slice, ih]

theorem Memory.getElem_slice (m : Memory) (a len k : Nat) (h : k < (m.slice a len).length) :
    (m.slice a len)[k] = m.get (a + k) := by
  induction len generalizing a k with
  | zero => simp at h
  | succ len ih =>
    cases k with
    | zero => simp [Memory.slice]
    | succ k =>
      have := ih (a + 1) k (by simpa using h)
      simpa [Memory.slice, Nat.add_assoc, Nat.add_comm 1 k] using this

/-! ### The canonical form -/

theorem Memory.wfFrom_mono {lo lo' : Nat} (h : lo ≤ lo') {m : Memory} (hm : Memory.wfFrom lo' m = true) :
    Memory.wfFrom lo m = true := by
  cases m with
  | nil => rfl
  | cons e m =>
    obtain ⟨k, b⟩ := e
    simp only [Memory.wfFrom, Bool.and_eq_true, decide_eq_true_eq] at hm ⊢
    exact ⟨⟨⟨by omega, hm.1.1.2⟩, hm.1.2⟩, hm.2⟩

theorem Memory.wfFrom_erase {lo : Nat} {m : Memory} (a : Nat) (hm : Memory.wfFrom lo m = true) :
    Memory.wfFrom lo (m.erase a) = true := by
  induction m generalizing lo with
  | nil => rfl
  | cons e m ih =>
    obtain ⟨k, b⟩ := e
    simp only [Memory.wfFrom, Bool.and_eq_true, decide_eq_true_eq] at hm
    have htail := ih hm.2
    simp only [Memory.erase] at htail ⊢
    by_cases hk : k = a
    · simp only [hk, bne_self_eq_false, Bool.false_eq_true, not_false_eq_true, List.filter_cons_of_neg]
      rw [hk] at htail hm
      exact Memory.wfFrom_mono (by omega) htail
    · simp [hk, Memory.wfFrom, hm.1.1.1, hm.1.1.2, hm.1.2, htail]

theorem Memory.wfFrom_insert {lo : Nat} {m : Memory} {a : Nat} {b : Byte} (hm : Memory.wfFrom lo m = true)
    (hf : ∀ e ∈ m, e.1 ≠ a) (hlo : lo ≤ a) (ha : a < 4096) (hb : b ≠ Memory.unlisted a) :
    Memory.wfFrom lo (m.insert a b) = true := by
  induction m generalizing lo with
  | nil => simp [Memory.insert, Memory.wfFrom, hlo, ha, hb]
  | cons e m ih =>
    obtain ⟨k, c⟩ := e
    have hk : k ≠ a := hf (k, c) (by simp)
    simp only [Memory.wfFrom, Bool.and_eq_true, decide_eq_true_eq] at hm
    by_cases hlt : a < k
    · simp [Memory.insert, hlt, Memory.wfFrom, hlo, ha, hb, hm.1.1.2, hm.1.2, hm.2, Nat.succ_le_of_lt hlt]
    · have := ih hm.2 (fun e he => hf e (by simp [he])) (by omega)
      simp [Memory.insert, hlt, Memory.wfFrom, hm.1.1.1, hm.1.1.2, hm.1.2, this]

/-- A store inside memory keeps the canonical form. -/
theorem Memory.wf_set {m : Memory} (hm : m.wf = true) {a : Nat} (ha : a < 4096) (b : Byte) :
    (m.set a b).wf = true := by
  unfold Memory.set
  split
  · exact Memory.wfFrom_erase a hm
  · rename_i hb
    exact Memory.wfFrom_insert (Memory.wfFrom_erase a hm) (Memory.erase_fresh m a) (Nat.zero_le a) ha hb

/-- So does a store of consecutive bytes. -/
theorem Memory.wf_store {m : Memory} (hm : m.wf = true) {a : Nat} {bs : List Byte}
    (ha : a + bs.length ≤ 4096) : (m.store a bs).wf = true := by
  induction bs generalizing m a with
  | nil => exact hm
  | cons b bs ih =>
    rw [List.length_cons] at ha
    exact ih (Memory.wf_set hm (by omega) b) (by omega)

/-- Below its first address a canonical memory reads as unlisted. -/
theorem Memory.get_of_lt_wfFrom {lo : Nat} {m : Memory} (hm : Memory.wfFrom lo m = true) {a : Nat}
    (ha : a < lo) : m.get a = Memory.unlisted a := by
  induction m generalizing lo with
  | nil => rfl
  | cons e m ih =>
    obtain ⟨k, b⟩ := e
    simp only [Memory.wfFrom, Bool.and_eq_true, decide_eq_true_eq] at hm
    have hk : k ≠ a := by omega
    simpa [Memory.get, hk] using ih hm.2 (by omega)

/-- Equal memories are equal lists: the canonical form is determined by what it reads as. -/
theorem Memory.ext_of_wfFrom {lo : Nat} {m m' : Memory} (hm : Memory.wfFrom lo m = true)
    (hm' : Memory.wfFrom lo m' = true) (h : ∀ a, m.get a = m'.get a) : m = m' := by
  induction m generalizing lo m' with
  | nil =>
    cases m' with
    | nil => rfl
    | cons e m' =>
      obtain ⟨k, b⟩ := e
      simp only [Memory.wfFrom, Bool.and_eq_true, decide_eq_true_eq, bne_iff_ne] at hm'
      have := h k
      simp only [Memory.get, if_true] at this
      exact absurd this.symm hm'.1.2
  | cons e m ih =>
    obtain ⟨k, b⟩ := e
    have hmc := hm
    simp only [Memory.wfFrom, Bool.and_eq_true, decide_eq_true_eq, bne_iff_ne] at hm
    cases m' with
    | nil =>
      have := h k
      simp only [Memory.get, if_true] at this
      exact absurd this hm.1.2
    | cons e' m' =>
      obtain ⟨k', b'⟩ := e'
      have hmc' := hm'
      simp only [Memory.wfFrom, Bool.and_eq_true, decide_eq_true_eq, bne_iff_ne] at hm'
      have hk : k = k' := by
        rcases Nat.lt_trichotomy k k' with hlt | heq | hlt
        · have h1 := h k
          have hne : k' ≠ k := by omega
          simp only [Memory.get, if_true, if_neg hne] at h1
          rw [Memory.get_of_lt_wfFrom hm'.2 (by omega)] at h1
          exact absurd h1 hm.1.2
        · exact heq
        · have h1 := h k'
          have hne : k ≠ k' := by omega
          simp only [Memory.get, if_true, if_neg hne] at h1
          rw [Memory.get_of_lt_wfFrom hm.2 (by omega)] at h1
          exact absurd h1.symm hm'.1.2
      subst hk
      have hb : b = b' := by simpa [Memory.get] using h k
      subst hb
      have htail : m = m' := by
        refine ih hm.2 hm'.2 fun a => ?_
        by_cases ha : k = a
        · rw [← ha, Memory.get_of_lt_wfFrom hm.2 (by omega), Memory.get_of_lt_wfFrom hm'.2 (by omega)]
        · simpa [Memory.get, ha] using h a
      rw [htail]

/-- Equal memories are equal lists. -/
theorem Memory.ext_of_wf {m m' : Memory} (hm : m.wf = true) (hm' : m'.wf = true)
    (h : ∀ a, m.get a = m'.get a) : m = m' := Memory.ext_of_wfFrom hm hm' h

/-- Memory at reset lists nothing and is canonical. -/
theorem State.reset_mem_wf : State.reset.mem.wf = true := rfl

end Sys2Proof.Machine
end

