-- ==== Sys2Proof/Laws/State.lean ====
section
/-! SUPPORT. What each named update does to each field of the state: one lemma a field and an update, so
that no proof unfolds a record update. -/

namespace Sys2Proof.Machine

open Sys2Proof

/-! ### `setV` -/

@[simp] theorem State.setV_mem (s : State) (x : Nibble) (b : Byte) :
    (s.setV x b).mem = s.mem := rfl

@[simp] theorem State.setV_v (s : State) (x : Nibble) (b : Byte) :
    (s.setV x b).v = s.v.set x.toNat b x.isLt := rfl

@[simp] theorem State.setV_i (s : State) (x : Nibble) (b : Byte) :
    (s.setV x b).i = s.i := rfl

@[simp] theorem State.setV_pc (s : State) (x : Nibble) (b : Byte) :
    (s.setV x b).pc = s.pc := rfl

@[simp] theorem State.setV_stack (s : State) (x : Nibble) (b : Byte) :
    (s.setV x b).stack = s.stack := rfl

@[simp] theorem State.setV_dt (s : State) (x : Nibble) (b : Byte) :
    (s.setV x b).dt = s.dt := rfl

@[simp] theorem State.setV_st (s : State) (x : Nibble) (b : Byte) :
    (s.setV x b).st = s.st := rfl

@[simp] theorem State.setV_acc (s : State) (x : Nibble) (b : Byte) :
    (s.setV x b).acc = s.acc := rfl

@[simp] theorem State.setV_fb (s : State) (x : Nibble) (b : Byte) :
    (s.setV x b).fb = s.fb := rfl

@[simp] theorem State.setV_keys (s : State) (x : Nibble) (b : Byte) :
    (s.setV x b).keys = s.keys := rfl

@[simp] theorem State.setV_blocked (s : State) (x : Nibble) (b : Byte) :
    (s.setV x b).blocked = s.blocked := rfl

@[simp] theorem State.setV_fault (s : State) (x : Nibble) (b : Byte) :
    (s.setV x b).fault = s.fault := rfl

@[simp] theorem State.setV_cfg (s : State) (x : Nibble) (b : Byte) :
    (s.setV x b).cfg = s.cfg := rfl

@[simp] theorem State.setV_rand (s : State) (x : Nibble) (b : Byte) :
    (s.setV x b).rand = s.rand := rfl

@[simp] theorem State.setV_out (s : State) (x : Nibble) (b : Byte) :
    (s.setV x b).out = s.out := rfl

@[simp] theorem State.setV_pending (s : State) (x : Nibble) (b : Byte) :
    (s.setV x b).pending = s.pending := rfl

@[simp] theorem State.setV_draws (s : State) (x : Nibble) (b : Byte) :
    (s.setV x b).draws = s.draws := rfl

/-! ### `setFlag` -/

@[simp] theorem State.setFlag_mem (s : State) (f : Bool) :
    (s.setFlag f).mem = s.mem := rfl

@[simp] theorem State.setFlag_v (s : State) (f : Bool) :
    (s.setFlag f).v = s.v.set 15 (if f then 1 else 0) := rfl

@[simp] theorem State.setFlag_i (s : State) (f : Bool) :
    (s.setFlag f).i = s.i := rfl

@[simp] theorem State.setFlag_pc (s : State) (f : Bool) :
    (s.setFlag f).pc = s.pc := rfl

@[simp] theorem State.setFlag_stack (s : State) (f : Bool) :
    (s.setFlag f).stack = s.stack := rfl

@[simp] theorem State.setFlag_dt (s : State) (f : Bool) :
    (s.setFlag f).dt = s.dt := rfl

@[simp] theorem State.setFlag_st (s : State) (f : Bool) :
    (s.setFlag f).st = s.st := rfl

@[simp] theorem State.setFlag_acc (s : State) (f : Bool) :
    (s.setFlag f).acc = s.acc := rfl

@[simp] theorem State.setFlag_fb (s : State) (f : Bool) :
    (s.setFlag f).fb = s.fb := rfl

@[simp] theorem State.setFlag_keys (s : State) (f : Bool) :
    (s.setFlag f).keys = s.keys := rfl

@[simp] theorem State.setFlag_blocked (s : State) (f : Bool) :
    (s.setFlag f).blocked = s.blocked := rfl

@[simp] theorem State.setFlag_fault (s : State) (f : Bool) :
    (s.setFlag f).fault = s.fault := rfl

@[simp] theorem State.setFlag_cfg (s : State) (f : Bool) :
    (s.setFlag f).cfg = s.cfg := rfl

@[simp] theorem State.setFlag_rand (s : State) (f : Bool) :
    (s.setFlag f).rand = s.rand := rfl

@[simp] theorem State.setFlag_out (s : State) (f : Bool) :
    (s.setFlag f).out = s.out := rfl

@[simp] theorem State.setFlag_pending (s : State) (f : Bool) :
    (s.setFlag f).pending = s.pending := rfl

@[simp] theorem State.setFlag_draws (s : State) (f : Bool) :
    (s.setFlag f).draws = s.draws := rfl

/-! ### `advance` -/

@[simp] theorem State.advance_mem (s : State) :
    s.advance.mem = s.mem := rfl

@[simp] theorem State.advance_v (s : State) :
    s.advance.v = s.v := rfl

@[simp] theorem State.advance_i (s : State) :
    s.advance.i = s.i := rfl

@[simp] theorem State.advance_pc (s : State) :
    s.advance.pc = s.pc + 2 := rfl

@[simp] theorem State.advance_stack (s : State) :
    s.advance.stack = s.stack := rfl

@[simp] theorem State.advance_dt (s : State) :
    s.advance.dt = s.dt := rfl

@[simp] theorem State.advance_st (s : State) :
    s.advance.st = s.st := rfl

@[simp] theorem State.advance_acc (s : State) :
    s.advance.acc = s.acc := rfl

@[simp] theorem State.advance_fb (s : State) :
    s.advance.fb = s.fb := rfl

@[simp] theorem State.advance_keys (s : State) :
    s.advance.keys = s.keys := rfl

@[simp] theorem State.advance_blocked (s : State) :
    s.advance.blocked = s.blocked := rfl

@[simp] theorem State.advance_fault (s : State) :
    s.advance.fault = s.fault := rfl

@[simp] theorem State.advance_cfg (s : State) :
    s.advance.cfg = s.cfg := rfl

@[simp] theorem State.advance_rand (s : State) :
    s.advance.rand = s.rand := rfl

@[simp] theorem State.advance_out (s : State) :
    s.advance.out = .quiet := rfl

@[simp] theorem State.advance_pending (s : State) :
    s.advance.pending = s.pending := rfl

@[simp] theorem State.advance_draws (s : State) :
    s.advance.draws = s.draws := rfl

/-! ### `skipIf` -/

@[simp] theorem State.skipIf_mem (s : State) (c : Bool) :
    (s.skipIf c).mem = s.mem := rfl

@[simp] theorem State.skipIf_v (s : State) (c : Bool) :
    (s.skipIf c).v = s.v := rfl

@[simp] theorem State.skipIf_i (s : State) (c : Bool) :
    (s.skipIf c).i = s.i := rfl

@[simp] theorem State.skipIf_pc (s : State) (c : Bool) :
    (s.skipIf c).pc = if c then s.pc + 2 else s.pc := rfl

@[simp] theorem State.skipIf_stack (s : State) (c : Bool) :
    (s.skipIf c).stack = s.stack := rfl

@[simp] theorem State.skipIf_dt (s : State) (c : Bool) :
    (s.skipIf c).dt = s.dt := rfl

@[simp] theorem State.skipIf_st (s : State) (c : Bool) :
    (s.skipIf c).st = s.st := rfl

@[simp] theorem State.skipIf_acc (s : State) (c : Bool) :
    (s.skipIf c).acc = s.acc := rfl

@[simp] theorem State.skipIf_fb (s : State) (c : Bool) :
    (s.skipIf c).fb = s.fb := rfl

@[simp] theorem State.skipIf_keys (s : State) (c : Bool) :
    (s.skipIf c).keys = s.keys := rfl

@[simp] theorem State.skipIf_blocked (s : State) (c : Bool) :
    (s.skipIf c).blocked = s.blocked := rfl

@[simp] theorem State.skipIf_fault (s : State) (c : Bool) :
    (s.skipIf c).fault = s.fault := rfl

@[simp] theorem State.skipIf_cfg (s : State) (c : Bool) :
    (s.skipIf c).cfg = s.cfg := rfl

@[simp] theorem State.skipIf_rand (s : State) (c : Bool) :
    (s.skipIf c).rand = s.rand := rfl

@[simp] theorem State.skipIf_out (s : State) (c : Bool) :
    (s.skipIf c).out = s.out := rfl

@[simp] theorem State.skipIf_pending (s : State) (c : Bool) :
    (s.skipIf c).pending = s.pending := rfl

@[simp] theorem State.skipIf_draws (s : State) (c : Bool) :
    (s.skipIf c).draws = s.draws := rfl

/-! ### `markDirty` -/

@[simp] theorem State.markDirty_mem (s : State) :
    s.markDirty.mem = s.mem := rfl

@[simp] theorem State.markDirty_v (s : State) :
    s.markDirty.v = s.v := rfl

@[simp] theorem State.markDirty_i (s : State) :
    s.markDirty.i = s.i := rfl

@[simp] theorem State.markDirty_pc (s : State) :
    s.markDirty.pc = s.pc := rfl

@[simp] theorem State.markDirty_stack (s : State) :
    s.markDirty.stack = s.stack := rfl

@[simp] theorem State.markDirty_dt (s : State) :
    s.markDirty.dt = s.dt := rfl

@[simp] theorem State.markDirty_st (s : State) :
    s.markDirty.st = s.st := rfl

@[simp] theorem State.markDirty_acc (s : State) :
    s.markDirty.acc = s.acc := rfl

@[simp] theorem State.markDirty_fb (s : State) :
    s.markDirty.fb = s.fb := rfl

@[simp] theorem State.markDirty_keys (s : State) :
    s.markDirty.keys = s.keys := rfl

@[simp] theorem State.markDirty_blocked (s : State) :
    s.markDirty.blocked = s.blocked := rfl

@[simp] theorem State.markDirty_fault (s : State) :
    s.markDirty.fault = s.fault := rfl

@[simp] theorem State.markDirty_cfg (s : State) :
    s.markDirty.cfg = s.cfg := rfl

@[simp] theorem State.markDirty_rand (s : State) :
    s.markDirty.rand = s.rand := rfl

@[simp] theorem State.markDirty_out (s : State) :
    s.markDirty.out = { s.out with displayDirty := true } := rfl

@[simp] theorem State.markDirty_pending (s : State) :
    s.markDirty.pending = s.pending := rfl

@[simp] theorem State.markDirty_draws (s : State) :
    s.markDirty.draws = s.draws := rfl

/-! ### `push` -/

@[simp] theorem State.push_mem (s : State) (a : Word) :
    (s.push a).mem = s.mem := rfl

@[simp] theorem State.push_v (s : State) (a : Word) :
    (s.push a).v = s.v := rfl

@[simp] theorem State.push_i (s : State) (a : Word) :
    (s.push a).i = s.i := rfl

@[simp] theorem State.push_pc (s : State) (a : Word) :
    (s.push a).pc = s.pc := rfl

@[simp] theorem State.push_stack (s : State) (a : Word) :
    (s.push a).stack = a :: s.stack := rfl

@[simp] theorem State.push_dt (s : State) (a : Word) :
    (s.push a).dt = s.dt := rfl

@[simp] theorem State.push_st (s : State) (a : Word) :
    (s.push a).st = s.st := rfl

@[simp] theorem State.push_acc (s : State) (a : Word) :
    (s.push a).acc = s.acc := rfl

@[simp] theorem State.push_fb (s : State) (a : Word) :
    (s.push a).fb = s.fb := rfl

@[simp] theorem State.push_keys (s : State) (a : Word) :
    (s.push a).keys = s.keys := rfl

@[simp] theorem State.push_blocked (s : State) (a : Word) :
    (s.push a).blocked = s.blocked := rfl

@[simp] theorem State.push_fault (s : State) (a : Word) :
    (s.push a).fault = s.fault := rfl

@[simp] theorem State.push_cfg (s : State) (a : Word) :
    (s.push a).cfg = s.cfg := rfl

@[simp] theorem State.push_rand (s : State) (a : Word) :
    (s.push a).rand = s.rand := rfl

@[simp] theorem State.push_out (s : State) (a : Word) :
    (s.push a).out = s.out := rfl

@[simp] theorem State.push_pending (s : State) (a : Word) :
    (s.push a).pending = s.pending := rfl

@[simp] theorem State.push_draws (s : State) (a : Word) :
    (s.push a).draws = s.draws := rfl

/-! ### `takeFatal` -/

@[simp] theorem State.takeFatal_mem (s : State) (f : FaultLatch) (a : Option Nat) :
    (s.takeFatal f a).mem = s.mem := rfl

@[simp] theorem State.takeFatal_v (s : State) (f : FaultLatch) (a : Option Nat) :
    (s.takeFatal f a).v = s.v := rfl

@[simp] theorem State.takeFatal_i (s : State) (f : FaultLatch) (a : Option Nat) :
    (s.takeFatal f a).i = s.i := rfl

@[simp] theorem State.takeFatal_pc (s : State) (f : FaultLatch) (a : Option Nat) :
    (s.takeFatal f a).pc = s.pc := rfl

@[simp] theorem State.takeFatal_stack (s : State) (f : FaultLatch) (a : Option Nat) :
    (s.takeFatal f a).stack = s.stack := rfl

@[simp] theorem State.takeFatal_dt (s : State) (f : FaultLatch) (a : Option Nat) :
    (s.takeFatal f a).dt = s.dt := rfl

@[simp] theorem State.takeFatal_st (s : State) (f : FaultLatch) (a : Option Nat) :
    (s.takeFatal f a).st = s.st := rfl

@[simp] theorem State.takeFatal_acc (s : State) (f : FaultLatch) (a : Option Nat) :
    (s.takeFatal f a).acc = s.acc := rfl

@[simp] theorem State.takeFatal_fb (s : State) (f : FaultLatch) (a : Option Nat) :
    (s.takeFatal f a).fb = s.fb := rfl

@[simp] theorem State.takeFatal_keys (s : State) (f : FaultLatch) (a : Option Nat) :
    (s.takeFatal f a).keys = s.keys := rfl

@[simp] theorem State.takeFatal_blocked (s : State) (f : FaultLatch) (a : Option Nat) :
    (s.takeFatal f a).blocked = s.blocked := rfl

@[simp] theorem State.takeFatal_fault (s : State) (f : FaultLatch) (a : Option Nat) :
    (s.takeFatal f a).fault = f := rfl

@[simp] theorem State.takeFatal_cfg (s : State) (f : FaultLatch) (a : Option Nat) :
    (s.takeFatal f a).cfg = s.cfg := rfl

@[simp] theorem State.takeFatal_rand (s : State) (f : FaultLatch) (a : Option Nat) :
    (s.takeFatal f a).rand = s.rand := rfl

@[simp] theorem State.takeFatal_out (s : State) (f : FaultLatch) (a : Option Nat) :
    (s.takeFatal f a).out = ⟨false, none, a⟩ := rfl

@[simp] theorem State.takeFatal_pending (s : State) (f : FaultLatch) (a : Option Nat) :
    (s.takeFatal f a).pending = s.pending := rfl

@[simp] theorem State.takeFatal_draws (s : State) (f : FaultLatch) (a : Option Nat) :
    (s.takeFatal f a).draws = s.draws := rfl

/-! ### Reading a register -/

/-- A register write is isolated (spec/10_state.md R13). -/
@[simp] theorem State.getV_setV (s : State) (x y : Nibble) (b : Byte) :
    (s.setV x b).getV y = if y = x then b else s.getV y := by
  by_cases h : y = x
  · subst h
    simp [State.getV, State.setV]
  · have hn : x.toNat ≠ y.toNat := fun e => h (BitVec.eq_of_toNat_eq e.symm)
    simp [State.getV, State.setV, h, Vector.getElem_set_ne _ _ hn]

@[simp] theorem State.getV_setFlag (s : State) (y : Nibble) (f : Bool) :
    (s.setFlag f).getV y = if y = flagReg then (if f then 1 else 0) else s.getV y :=
  s.getV_setV flagReg y _

/-- States with the same registers read the same. -/
theorem State.getV_congr {s t : State} (h : t.v = s.v) (x : Nibble) : t.getV x = s.getV x := by
  simp [State.getV, h]

/-- The registers are what reading them gives. -/
theorem State.v_ext {s t : State} (h : ∀ x, t.getV x = s.getV x) : t.v = s.v := by
  apply Vector.ext
  intro k hk
  have := h (BitVec.ofNat 4 k)
  simpa [State.getV, Nat.mod_eq_of_lt hk] using this

@[simp] theorem State.advance_getV (s : State) (x : Nibble) : s.advance.getV x = s.getV x := rfl

@[simp] theorem State.skipIf_getV (s : State) (c : Bool) (x : Nibble) : (s.skipIf c).getV x = s.getV x := rfl

@[simp] theorem State.markDirty_getV (s : State) (x : Nibble) : s.markDirty.getV x = s.getV x := rfl

@[simp] theorem State.takeFatal_getV (s : State) (f : FaultLatch) (a : Option Nat) (x : Nibble) :
    (s.takeFatal f a).getV x = s.getV x := rfl

end Sys2Proof.Machine
end

