-- ==== Sys2Proof/Laws/Ops.lean ====
section
/-! SUPPORT. What the shared operations do: the key scan, the stack, the timers. -/

namespace Sys2Proof.Machine

open Sys2Proof

/-! ### The key scan (spec/40_cycle_engine.md R85) -/

theorem firstHeld_eq_none {keys : Vector Bool 16} :
    firstHeld keys = none ↔ ∀ k : Fin 16, keys[k] = false := by
  simp [firstHeld]

/-- The latched key is the least held one. -/
theorem firstHeld_eq_some {keys : Vector Bool 16} {k : Fin 16} :
    firstHeld keys = some k ↔ keys[k] = true ∧ ∀ j : Fin 16, j < k → keys[j] = false := by
  unfold firstHeld
  rw [List.find?_eq_some_iff_getElem]
  constructor
  · rintro ⟨hk, i, hi, he, hj⟩
    refine ⟨hk, fun j hlt => ?_⟩
    simp only [List.getElem_finRange, Fin.ext_iff, Fin.val_cast] at he
    have := hj j.val (by rw [he]; exact hlt)
    simpa using this
  · rintro ⟨hk, hj⟩
    refine ⟨hk, k.val, by simp, by simp, fun j hlt => ?_⟩
    have hjn : j < 16 := Nat.lt_trans hlt k.isLt
    simpa using hj ⟨j, hjn⟩ hlt

/-! ### The stack (spec/10_state.md R19) -/

theorem State.pop_of_nil {s : State} (h : s.stack = []) : s.pop = none := by simp [State.pop, h]

theorem State.pop_of_cons {s : State} {a : Word} {rest : List Word} (h : s.stack = a :: rest) :
    s.pop = some (a, { s with stack := rest }) := by simp [State.pop, h]

/-! ### The timers (spec/40_cycle_engine.md R93) -/

@[simp] theorem countDown_toNat (b : Byte) (k : Nat) : (countDown b k).toNat = b.toNat - k := by
  have := b.isLt
  simp only [countDown, BitVec.toNat_ofNat]
  omega

@[simp] theorem countDown_zero (b : Byte) : countDown b 0 = b := by
  apply BitVec.eq_of_toNat_eq
  simp

theorem countDown_countDown (b : Byte) (k l : Nat) : countDown (countDown b k) l = countDown b (k + l) := by
  apply BitVec.eq_of_toNat_eq
  simp only [countDown_toNat]
  omega

theorem State.tick_of_running {s : State} (h : s.fault = .none) (e : Nat) :
    s.tick e = { s with
      dt := countDown s.dt ((s.acc + e) / s.cfg.tickInterval)
      st := countDown s.st ((s.acc + e) / s.cfg.tickInterval)
      acc := (s.acc + e) - (s.acc + e) / s.cfg.tickInterval * s.cfg.tickInterval } := by
  simp [State.tick, h]

theorem State.tick_of_faulted {s : State} (h : s.fault ≠ .none) (e : Nat) : s.tick e = s := by
  simp [State.tick, h]

@[simp] theorem State.tick_mem (s : State) (e : Nat) : (s.tick e).mem = s.mem := by
  unfold State.tick; split <;> rfl

@[simp] theorem State.tick_v (s : State) (e : Nat) : (s.tick e).v = s.v := by
  unfold State.tick; split <;> rfl

@[simp] theorem State.tick_i (s : State) (e : Nat) : (s.tick e).i = s.i := by
  unfold State.tick; split <;> rfl

@[simp] theorem State.tick_pc (s : State) (e : Nat) : (s.tick e).pc = s.pc := by
  unfold State.tick; split <;> rfl

@[simp] theorem State.tick_stack (s : State) (e : Nat) : (s.tick e).stack = s.stack := by
  unfold State.tick; split <;> rfl

@[simp] theorem State.tick_fb (s : State) (e : Nat) : (s.tick e).fb = s.fb := by
  unfold State.tick; split <;> rfl

@[simp] theorem State.tick_keys (s : State) (e : Nat) : (s.tick e).keys = s.keys := by
  unfold State.tick; split <;> rfl

@[simp] theorem State.tick_blocked (s : State) (e : Nat) : (s.tick e).blocked = s.blocked := by
  unfold State.tick; split <;> rfl

@[simp] theorem State.tick_fault (s : State) (e : Nat) : (s.tick e).fault = s.fault := by
  unfold State.tick; split <;> rfl

@[simp] theorem State.tick_cfg (s : State) (e : Nat) : (s.tick e).cfg = s.cfg := by
  unfold State.tick; split <;> rfl

@[simp] theorem State.tick_rand (s : State) (e : Nat) : (s.tick e).rand = s.rand := by
  unfold State.tick; split <;> rfl

@[simp] theorem State.tick_out (s : State) (e : Nat) : (s.tick e).out = s.out := by
  unfold State.tick; split <;> rfl

@[simp] theorem State.tick_pending (s : State) (e : Nat) : (s.tick e).pending = s.pending := by
  unfold State.tick; split <;> rfl

@[simp] theorem State.tick_draws (s : State) (e : Nat) : (s.tick e).draws = s.draws := by
  unfold State.tick; split <;> rfl

end Sys2Proof.Machine
end

