-- ==== Sys2Proof/Laws/Cycle.lean ====
section
/-! SUPPORT. The cycle engine: what a fetch gives, which phase a step runs, and what the next transaction
is. -/

namespace Sys2Proof.Machine

open Sys2Proof

/-! ### Fetch (spec/20_memory.md R44) -/

theorem State.fetch_of_lt {s : State} (h : s.pc.toNat < 4095) :
    s.fetch = .ok (wordOfBytes (s.mem.get s.pc.toNat) (s.mem.get (s.pc.toNat + 1))) := by
  have hn : Memory.firstOutside s.pc.toNat 2 = none := Memory.firstOutside_eq_none.2 (by omega)
  simp [State.fetch, hn]

theorem State.fetch_of_ge {s : State} (h : 4095 ≤ s.pc.toNat) :
    s.fetch = .error (max s.pc.toNat 4096) := by
  have hs : Memory.firstOutside s.pc.toNat 2 = some (max s.pc.toNat 4096) :=
    Memory.firstOutside_eq_some.2 ⟨by omega, by omega, rfl⟩
  simp [State.fetch, hs]

/-- A fetch that succeeds is from below 4095. -/
theorem State.lt_of_fetch {s : State} {w : Word} (h : s.fetch = .ok w) : s.pc.toNat < 4095 := by
  by_contra hc
  rw [State.fetch_of_ge (by omega)] at h
  cases h

/-! ### The phases of a step (spec/40_cycle_engine.md R83) -/

theorem State.cycle_of_faulted {s : State} (h : s.fault ≠ .none) (keys : Vector Bool 16) (rand : Byte) :
    s.cycle keys rand = .next { s with out := .quiet } := by
  simp [State.cycle, h]

theorem State.cycle_of_blocked {s : State} (h : s.fault = .none) {x : Nibble} (hb : s.blocked = some x)
    (keys : Vector Bool 16) (rand : Byte) :
    s.cycle keys rand = .next ((s.supply keys rand).keyBlockPhase x) := by
  simp [State.cycle, h, State.supply, hb]

theorem State.cycle_of_ready {s : State} (h : s.fault = .none) (hb : s.blocked = none)
    (keys : Vector Bool 16) (rand : Byte) :
    s.cycle keys rand = (s.supply keys rand).fetchExec := by
  simp [State.cycle, h, State.supply, hb]

theorem State.fetchExec_of_ok {s : State} {w : Word} (h : s.fetch = .ok w) :
    s.fetchExec = exec (decodeWord w) s := by
  simp [State.fetchExec, h]

theorem State.fetchExec_of_error {s : State} {a : Nat} (h : s.fetch = .error a) :
    s.fetchExec = .next (s.raiseOutOfBounds a) := by
  simp [State.fetchExec, h]

@[simp] theorem State.supply_fetch (s : State) (keys : Vector Bool 16) (rand : Byte) :
    (s.supply keys rand).fetch = s.fetch := rfl

/-! ### The next transaction (R80) -/

theorem step_of_pending {s : State} {t : Transaction} {rest : List Transaction}
    (h : s.pending = t :: rest) : step s = { s with pending := rest }.transact t := by
  simp [step, State.nextTransaction, h]

theorem step_of_free {s : State} (h : s.pending = []) : step s = s.freeTransact := by
  simp [step, State.nextTransaction, h]

/-- What a reset that is not refused has checked, and the state it gives. -/
theorem State.resetWith_eq_next {s t : State} {font program : List Byte} {offset : Word}
    {cfg : Config.Settings} (h : s.resetWith font program offset cfg = .next t) :
    font.length = 80 ∧ offset.toNat + program.length ≤ 4096 ∧ 0 < cfg.tickInterval ∧
      t = { State.reset with
        mem := loadImage font program offset, cfg := cfg, pending := s.pending, draws := s.draws } := by
  unfold State.resetWith at h
  split at h
  · rename_i hfits
    simp only [imageFits, Bool.and_eq_true, decide_eq_true_eq] at hfits
    split at h
    · cases h
    · injection h with h
      exact ⟨hfits.1, hfits.2, by omega, h.symm⟩
  · cases h

/-- A property of memory, `PC`, the stack, the accumulator and the configuration that execution after a
successful fetch keeps is kept by a whole `step` transaction. -/
theorem State.cycle_preserves {P : State → Prop} {s t : State} {keys : Vector Bool 16} {rand : Byte}
    (h : s.cycle keys rand = .next t)
    (hsame : ∀ s s' : State, s'.mem = s.mem → s'.pc = s.pc → s'.stack = s.stack → s'.acc = s.acc →
      s'.cfg = s.cfg → P s → P s')
    (hexec : ∀ i (s t : State), exec i s = .next t → s.pc.toNat < 4095 → P s → P t) (hs : P s) : P t := by
  by_cases hf : s.fault = .none
  · cases hb : s.blocked with
    | some x =>
      rw [State.cycle_of_blocked hf hb] at h
      injection h with h
      subst h
      refine hsame s _ ?_ ?_ ?_ ?_ ?_ hs <;> (unfold State.keyBlockPhase; split <;> rfl)
    | none =>
      rw [State.cycle_of_ready hf hb] at h
      have hs' : P (s.supply keys rand) := hsame s _ rfl rfl rfl rfl rfl hs
      cases hw : (s.supply keys rand).fetch with
      | error a =>
        rw [State.fetchExec_of_error hw] at h
        injection h with h
        subst h
        exact hsame s _ rfl rfl rfl rfl rfl hs
      | ok w =>
        rw [State.fetchExec_of_ok hw] at h
        exact hexec _ _ _ h (State.lt_of_fetch hw) hs'
  · rw [State.cycle_of_faulted hf] at h
    injection h with h
    subst h
    exact hsame s _ rfl rfl rfl rfl rfl hs

/-- The same for a step of the machine, which may also be a `tick` or a `reset`. -/
theorem step_preserves {P : State → Prop} {s t : State} (h : step s = .next t)
    (hsame : ∀ s s' : State, s'.mem = s.mem → s'.pc = s.pc → s'.stack = s.stack → s'.acc = s.acc →
      s'.cfg = s.cfg → P s → P s')
    (hexec : ∀ i (s t : State), exec i s = .next t → s.pc.toNat < 4095 → P s → P t)
    (htick : ∀ (s : State) e, P s → P (s.tick e))
    (hreset : ∀ (s t : State) font program offset cfg,
      s.resetWith font program offset cfg = .next t → P t)
    (hs : P s) : P t := by
  cases hp : s.pending with
  | nil =>
    rw [step_of_free hp] at h
    exact State.cycle_preserves h hsame hexec (htick _ _ (hsame s _ rfl rfl rfl rfl rfl hs))
  | cons tr rest =>
    rw [step_of_pending hp] at h
    have hs' : P { s with pending := rest } := hsame s _ rfl rfl rfl rfl rfl hs
    cases tr with
    | step keys rand => exact State.cycle_preserves h hsame hexec hs'
    | tick e =>
      injection h with h
      subst h
      exact htick _ _ hs'
    | reset font program offset cfg => exact hreset _ _ _ _ _ _ h

end Sys2Proof.Machine
end

