-- ==== Sys2Proof/Laws/Display.lean ====
section
/-! SUPPORT. The framebuffer: what a flip does to each cell, and what a blit does over distinct cells. -/

namespace Sys2Proof.Machine

open Sys2Proof

/-- Two coordinate pairs name the same cell. -/
abbrev SameCell (p q : Nat × Nat) : Prop := p.1 % 64 = q.1 % 64 ∧ p.2 % 32 = q.2 % 32

theorem Framebuffer.cell_eq (fb : Framebuffer) {c r : Nat} (hc : c < 64) (hr : r < 32) :
    fb.cell c r = fb[r][c] := by
  simp [Framebuffer.cell, Nat.mod_eq_of_lt hc, Nat.mod_eq_of_lt hr]

/-- Framebuffers with equal cells are equal. -/
theorem Framebuffer.ext_cell {fb fb' : Framebuffer}
    (h : ∀ c r, c < 64 → r < 32 → fb.cell c r = fb'.cell c r) : fb = fb' := by
  apply Vector.ext
  intro r hr
  apply Vector.ext
  intro c hc
  have := h c r hc hr
  rwa [Framebuffer.cell_eq _ hc hr, Framebuffer.cell_eq _ hc hr] at this

/-- A flip gives the new value of its cell. -/
theorem Framebuffer.flipCell_snd (fb : Framebuffer) (c r : Nat) : (fb.flipCell c r).2 = !fb.cell c r := rfl

/-- A flip toggles its cell and leaves every other cell alone (spec/44_display.md R150). -/
theorem Framebuffer.cell_flipCell (fb : Framebuffer) (c r c' r' : Nat) :
    (fb.flipCell c r).1.cell c' r' =
      if c' % 64 = c % 64 ∧ r' % 32 = r % 32 then !fb.cell c r else fb.cell c' r' := by
  by_cases hr : r' % 32 = r % 32
  · by_cases hc : c' % 64 = c % 64
    · simp [Framebuffer.flipCell, Framebuffer.cell, hr, hc]
    · simp [Framebuffer.flipCell, Framebuffer.cell, hr, hc, Vector.getElem_set_ne _ _ (Ne.symm hc)]
  · simp [Framebuffer.flipCell, Framebuffer.cell, hr, Vector.getElem_set_ne _ _ (Ne.symm hr)]

theorem Framebuffer.cell_clear (c r : Nat) : Framebuffer.clear.cell c r = false := by
  simp [Framebuffer.clear, Framebuffer.cell]

/-- The blit over cells of which no two are the same: each is toggled once, no other cell changes, and a hit
is recorded exactly when one of them was on. -/
theorem blit_spec (points : List (Nat × Nat)) (hd : points.Pairwise fun p q => ¬SameCell p q)
    (acc : Framebuffer × Bool) :
    let res := points.foldl (fun acc p => blitBit acc p.1 p.2) acc
    (∀ q : Nat × Nat, ((∃ p ∈ points, SameCell q p) → res.1.cell q.1 q.2 = !acc.1.cell q.1 q.2) ∧
      ((¬∃ p ∈ points, SameCell q p) → res.1.cell q.1 q.2 = acc.1.cell q.1 q.2)) ∧
    (res.2 = true ↔ acc.2 = true ∨ ∃ p ∈ points, acc.1.cell p.1 p.2 = true) := by
  induction points generalizing acc with
  | nil => simp
  | cons p points ih =>
    rw [List.pairwise_cons] at hd
    obtain ⟨hp, hd⟩ := hd
    have hstep := ih hd (blitBit acc p.1 p.2)
    have hcell : ∀ q : Nat × Nat, (blitBit acc p.1 p.2).1.cell q.1 q.2 =
        if SameCell q p then !acc.1.cell p.1 p.2 else acc.1.cell q.1 q.2 := fun q =>
      Framebuffer.cell_flipCell acc.1 p.1 p.2 q.1 q.2
    have hsame : ∀ q : Nat × Nat, SameCell q p → acc.1.cell q.1 q.2 = acc.1.cell p.1 p.2 := by
      intro q hq
      simp [Framebuffer.cell, hq.1, hq.2]
    have hhit : (blitBit acc p.1 p.2).2 = true ↔ acc.2 = true ∨ acc.1.cell p.1 p.2 = true := by
      simp [blitBit, Framebuffer.flipCell]
    rw [List.foldl_cons]
    refine ⟨fun q => ⟨?_, ?_⟩, ?_⟩
    · rintro ⟨p', hmem, hs⟩
      rcases List.mem_cons.1 hmem with rfl | hmem
      · have hno : ¬∃ p ∈ points, SameCell q p := by
          rintro ⟨p₂, h2, hs2⟩
          exact hp p₂ h2 ⟨hs.1.symm.trans hs2.1, hs.2.symm.trans hs2.2⟩
        rw [(hstep.1 q).2 hno, hcell, if_pos hs, hsame q hs]
      · have hnp : ¬SameCell q p := fun h2 =>
          hp p' hmem ⟨h2.1.symm.trans hs.1, h2.2.symm.trans hs.2⟩
        rw [(hstep.1 q).1 ⟨p', hmem, hs⟩, hcell, if_neg hnp]
    · intro hno
      have h1 : ¬SameCell q p := fun h => hno ⟨p, by simp, h⟩
      have h2 : ¬∃ p ∈ points, SameCell q p := fun ⟨p', hm, hs⟩ => hno ⟨p', by simp [hm], hs⟩
      rw [(hstep.1 q).2 h2, hcell, if_neg h1]
    · rw [hstep.2, hhit]
      have hrest : (∃ p₂ ∈ points, (blitBit acc p.1 p.2).1.cell p₂.1 p₂.2 = true) ↔
          ∃ p₂ ∈ points, acc.1.cell p₂.1 p₂.2 = true := by
        refine exists_congr fun p₂ => and_congr_right fun hm => ?_
        have hne : ¬SameCell p₂ p := fun h => hp p₂ hm ⟨h.1.symm, h.2.symm⟩
        rw [hcell, if_neg hne]
      rw [hrest]
      simp [or_assoc]

/-! ### The points of a sprite (spec/44_display.md R152) -/

theorem mem_rowPoints {x0 r : Nat} {b : Byte} {p : Nat × Nat} :
    p ∈ rowPoints x0 r b ↔ ∃ j, j < 8 ∧ b.getLsbD (7 - j) = true ∧ p = (x0 + j, r) := by
  rw [rowPoints, List.mem_map]
  constructor
  · rintro ⟨j, hj, rfl⟩
    rw [List.mem_filter, List.mem_range] at hj
    exact ⟨j, hj.1, hj.2, rfl⟩
  · rintro ⟨j, hj, hb, rfl⟩
    exact ⟨j, List.mem_filter.2 ⟨List.mem_range.2 hj, hb⟩, rfl⟩

theorem mem_spritePoints {x0 y0 : Nat} {bs : List Byte} {p : Nat × Nat} :
    p ∈ spritePoints x0 y0 bs ↔
      ∃ k j, ∃ h : k < bs.length, j < 8 ∧ bs[k].getLsbD (7 - j) = true ∧ p = (x0 + j, y0 + k) := by
  induction bs generalizing y0 with
  | nil => simp [spritePoints]
  | cons b bs ih =>
    rw [spritePoints, List.mem_append, mem_rowPoints, ih]
    constructor
    · rintro (⟨j, hj, hb, rfl⟩ | ⟨k, j, hk, hj, hb, rfl⟩)
      · exact ⟨0, j, by simp, hj, hb, rfl⟩
      · exact ⟨k + 1, j, by simpa using hk, hj, hb, by simp [Nat.add_assoc, Nat.add_comm 1 k]⟩
    · rintro ⟨k, j, hk, hj, hb, rfl⟩
      cases k with
      | zero => exact Or.inl ⟨j, hj, hb, rfl⟩
      | succ k =>
        exact Or.inr ⟨k, j, by simpa using hk, hj, hb, by simp [Nat.add_assoc, Nat.add_comm 1 k]⟩

theorem rowPoints_pairwise (x0 r : Nat) (b : Byte) :
    (rowPoints x0 r b).Pairwise fun p q => ¬SameCell p q := by
  unfold rowPoints
  rw [List.pairwise_map]
  refine (List.Pairwise.filter _ List.pairwise_lt_range).imp_of_mem ?_
  intro i j hi hj hlt hs
  have hi8 : i < 8 := by simpa using (List.mem_filter.1 hi).1
  have hj8 : j < 8 := by simpa using (List.mem_filter.1 hj).1
  have := hs.1
  simp only at this
  omega

/-- No cell is under two set bits of a sprite of at most 32 rows. -/
theorem spritePoints_pairwise (x0 y0 : Nat) (bs : List Byte) (hlen : bs.length ≤ 32) :
    (spritePoints x0 y0 bs).Pairwise fun p q => ¬SameCell p q := by
  induction bs generalizing y0 with
  | nil => exact List.Pairwise.nil
  | cons b bs ih =>
    rw [List.length_cons] at hlen
    rw [spritePoints, List.pairwise_append]
    refine ⟨rowPoints_pairwise x0 y0 b, ih (y0 + 1) (by omega), ?_⟩
    intro p hp q hq hs
    obtain ⟨j, -, -, rfl⟩ := mem_rowPoints.1 hp
    obtain ⟨k, j', hk, -, -, rfl⟩ := mem_spritePoints.1 hq
    have := hs.2
    simp only at this
    omega

end Sys2Proof.Machine
end

