-- ==== Sys2Proof/Laws/Exec.lean ====
section
/-! SUPPORT. What the five instructions with a fatal condition answer inside and outside their range, and
that execution always gives a next state. -/

namespace Sys2Proof.Machine

open Sys2Proof

theorem exec_ret_of_nil {s : State} (h : s.stack = []) : exec .ret s = .next s.raiseStackUnderflow := by
  simp [exec, execRet, State.pop, h]

theorem exec_ret_of_cons {s : State} {a : Word} {rest : List Word} (h : s.stack = a :: rest) :
    exec .ret s = .next { s.advance with stack := rest, pc := a } := by
  simp [exec, execRet, State.pop, h]

theorem exec_drw_of_inside {x y n : Nibble} {s : State} (h : n = 0 ∨ s.base + n.toNat ≤ 4096) :
    exec (.drw x y n) s = .next ({ s.advance with
      fb := (blit s.fb (spritePoints ((s.getV x).toNat % 64) ((s.getV y).toNat % 32)
        (s.mem.slice s.base n.toNat))).1 }.setFlag
      (blit s.fb (spritePoints ((s.getV x).toNat % 64) ((s.getV y).toNat % 32)
        (s.mem.slice s.base n.toNat))).2).markDirty := by
  have hn : Memory.firstOutside s.base n.toNat = none :=
    Memory.firstOutside_eq_none.2 (h.imp (fun e => by simp [e]) id)
  simp [exec, execDrw, hn]

theorem exec_drw_of_outside {x y n : Nibble} {s : State} (hn : n ≠ 0) (h : 4096 < s.base + n.toNat) :
    exec (.drw x y n) s = .next (s.raiseOutOfBounds (max s.base 4096)) := by
  have hs : Memory.firstOutside s.base n.toNat = some (max s.base 4096) :=
    Memory.firstOutside_eq_some.2 ⟨fun e => hn (BitVec.eq_of_toNat_eq e), h, rfl⟩
  simp [exec, execDrw, hs]

theorem exec_ldB_of_inside {x : Nibble} {s : State} (h : s.base + 3 ≤ 4096) :
    exec (.ldB x) s = .next { s.advance with mem := s.mem.store s.base (digits (s.getV x)) } := by
  simp [exec, execLdB, Memory.firstOutside_eq_none.2 (Or.inr h)]

theorem exec_ldB_of_outside {x : Nibble} {s : State} (h : 4096 < s.base + 3) :
    exec (.ldB x) s = .next (s.raiseOutOfBounds (max s.base 4096)) := by
  simp [exec, execLdB, Memory.firstOutside_eq_some.2 ⟨by decide, h, rfl⟩]

theorem exec_stRegs_of_inside {x : Nibble} {s : State} (h : s.base + (x.toNat + 1) ≤ 4096) :
    exec (.stRegs x) s =
      .next { s.advance with mem := s.mem.store s.base (s.regBytes x), i := s.indexAfter x } := by
  simp [exec, execStRegs, Memory.firstOutside_eq_none.2 (Or.inr h)]

theorem exec_stRegs_of_outside {x : Nibble} {s : State} (h : 4096 < s.base + (x.toNat + 1)) :
    exec (.stRegs x) s = .next (s.raiseOutOfBounds (max s.base 4096)) := by
  simp [exec, execStRegs, Memory.firstOutside_eq_some.2 ⟨Nat.succ_ne_zero _, h, rfl⟩]

theorem exec_ldRegs_of_inside {x : Nibble} {s : State} (h : s.base + (x.toNat + 1) ≤ 4096) :
    exec (.ldRegs x) s = .next { s.advance with v := s.loadedRegs x, i := s.indexAfter x } := by
  simp [exec, execLdRegs, Memory.firstOutside_eq_none.2 (Or.inr h)]

theorem exec_ldRegs_of_outside {x : Nibble} {s : State} (h : 4096 < s.base + (x.toNat + 1)) :
    exec (.ldRegs x) s = .next (s.raiseOutOfBounds (max s.base 4096)) := by
  simp [exec, execLdRegs, Memory.firstOutside_eq_some.2 ⟨Nat.succ_ne_zero _, h, rfl⟩]

/-! ### Operands -/

@[simp] theorem length_digits (b : Byte) : (digits b).length = 3 := rfl

@[simp] theorem State.length_regBytes (s : State) (x : Nibble) : (s.regBytes x).length = x.toNat + 1 := by
  have := x.isLt
  simp only [State.regBytes, List.length_take, Vector.length_toList, Config.numV]
  omega

theorem State.getElem_regBytes (s : State) (x : Nibble) (k : Nat) (h : k < (s.regBytes x).length) :
    (s.regBytes x)[k] = s.v[k]'(by have := x.isLt; simp only [Config.numV]; simp at h; omega) := by
  simp [State.regBytes]

theorem State.getElem_loadedRegs (s : State) (x : Nibble) (k : Nat) (h : k < 16) :
    (s.loadedRegs x)[k] = if k ≤ x.toNat then s.mem.get (s.base + k) else s.v[k] := by
  simp [State.loadedRegs]

theorem zextAddr_toNat (a : Addr12) : (zextAddr a).toNat = a.toNat := by
  have := a.isLt
  simp only [zextAddr, BitVec.toNat_setWidth]
  omega

theorem zextByte_toNat (b : Byte) : (zextByte b).toNat = b.toNat := by
  have := b.isLt
  simp only [zextByte, BitVec.toNat_setWidth]
  omega

/-- A skip taken moves `PC` on by 4 in all (spec/41_flow.md R100). -/
theorem add_instrBytes_twice (p : Word) : p + 2#16 + 2#16 = p + 4#16 := by
  rw [BitVec.add_assoc]
  rfl

/-- The index after a block transfer that lies inside memory: it never wraps. -/
theorem State.indexAfter_toNat {s : State} {x : Nibble} (h : s.base + x.toNat < 4096) :
    (s.indexAfter x).toNat = if s.cfg.loadStoreInc then s.base + x.toNat + 1 else s.base := by
  have := x.isLt
  unfold State.indexAfter
  unfold State.base at *
  split
  · simp only [BitVec.toNat_add, BitVec.toNat_ofNat]
    omega
  · rfl

/-- What a stored register reads as. -/
theorem State.read_store_regBytes {s : State} {x k : Nibble} (hk : k.toNat ≤ x.toNat)
    (h : s.base + x.toNat < 4096) :
    (s.mem.store s.base (s.regBytes x)).read (s.base + k.toNat) = some (s.getV k) := by
  have hv := State.getElem_regBytes s x k.toNat (by rw [State.length_regBytes]; omega)
  rw [Memory.read_of_lt _ (by omega), Memory.get_store, if_pos (by rw [State.length_regBytes]; omega),
    Nat.add_sub_cancel_left, List.getD_eq_getElem _ _ (by rw [State.length_regBytes]; omega), hv]
  rfl

/-! ### Completion -/

/-- Every instruction completes or takes a fatal condition: execution always gives a next state. -/
theorem exec_next (i : Instr) (s : State) : ∃ t, exec i s = .next t := by
  cases i with
  | ret =>
    rcases h : s.stack with _ | ⟨a, rest⟩
    · exact ⟨_, exec_ret_of_nil h⟩
    · exact ⟨_, exec_ret_of_cons h⟩
  | drw x y n =>
    by_cases h : n = 0 ∨ s.base + n.toNat ≤ 4096
    · exact ⟨_, exec_drw_of_inside h⟩
    · exact ⟨_, exec_drw_of_outside (fun e => h (Or.inl e)) (by omega)⟩
  | ldB x =>
    by_cases h : s.base + 3 ≤ 4096
    · exact ⟨_, exec_ldB_of_inside h⟩
    · exact ⟨_, exec_ldB_of_outside (by omega)⟩
  | stRegs x =>
    by_cases h : s.base + (x.toNat + 1) ≤ 4096
    · exact ⟨_, exec_stRegs_of_inside h⟩
    · exact ⟨_, exec_stRegs_of_outside (by omega)⟩
  | ldRegs x =>
    by_cases h : s.base + (x.toNat + 1) ≤ 4096
    · exact ⟨_, exec_ldRegs_of_inside h⟩
    · exact ⟨_, exec_ldRegs_of_outside (by omega)⟩
  | _ => exact ⟨_, rfl⟩

end Sys2Proof.Machine
end

