-- ==== Sys2Proof/Laws/PerInstr.lean ====
section
/-! SUPPORT. The family of per-instruction statements: an instruction's word lies in the row of the opcode
map (spec/30_encoding.md R65) that bears its mnemonic. -/

namespace Sys2Proof.Laws.EncodesInRow

open Sys2Proof

/-- Every row with the instruction's mnemonic matches its word. (No row bears the mnemonic UNKNOWN.) -/
def Statement (i : Instr) : Prop :=
  ∀ row ∈ opcodeMap, row.mnemonic = i.mnemonic → row.matches (encode i) = true

/-- A row keyed on `op` alone matches the words with that `op`. -/
theorem matches_op {m : String} {v w : Word} {op : Nibble} (hv : v = packXNN op 0 0) (h : opOf w = op) :
    (OpcodeRow.mk m 0xF000 v).matches w = true := by
  subst hv
  simpa [OpcodeRow.matches] using (mask_op w op).2 h

/-- A row keyed on `op` and `nn`. -/
theorem matches_op_nn {m : String} {v w : Word} {op : Nibble} {nn : Byte} (hv : v = packXNN op 0 nn)
    (h : opOf w = op) (h' : nnOf w = nn) : (OpcodeRow.mk m 0xF0FF v).matches w = true := by
  subst hv
  simpa [OpcodeRow.matches] using (mask_op_nn w op nn).2 ⟨h, h'⟩

/-- A row keyed on `op` and `n`. -/
theorem matches_op_n {m : String} {v w : Word} {op n : Nibble} (hv : v = packXYN op 0 0 n)
    (h : opOf w = op) (h' : nOf w = n) : (OpcodeRow.mk m 0xF00F v).matches w = true := by
  subst hv
  simpa [OpcodeRow.matches] using (mask_op_n w op n).2 ⟨h, h'⟩

/-- The one row that bears a mnemonic, found by evaluating the table's names. -/
theorem of_row {i : Instr} {r : OpcodeRow} (hr : opcodeMap.filter (fun q => q.mnemonic == i.mnemonic) = [r])
    (h : r.matches (encode i) = true) : Statement i := by
  intro q hq hm
  have : q ∈ opcodeMap.filter (fun q => q.mnemonic == i.mnemonic) := by simp [hq, hm]
  rw [hr, List.mem_singleton] at this
  rw [this]
  exact h

theorem cls : Statement .cls :=
  of_row rfl (matches_op_nn (op := 0x0) (nn := 0xE0) (by decide)
    (opOf_packXNN _ _ _) (nnOf_packXNN _ _ _))

theorem ret : Statement .ret :=
  of_row rfl (matches_op_nn (op := 0x0) (nn := 0xEE) (by decide)
    (opOf_packXNN _ _ _) (nnOf_packXNN _ _ _))

theorem jp (nnn : Addr12) : Statement (.jp nnn) :=
  of_row rfl (matches_op (op := 0x1) (by decide)
    (opOf_packNNN _ _))

theorem call (nnn : Addr12) : Statement (.call nnn) :=
  of_row rfl (matches_op (op := 0x2) (by decide)
    (opOf_packNNN _ _))

theorem se (x : Nibble) (nn : Byte) : Statement (.se x nn) :=
  of_row rfl (matches_op (op := 0x3) (by decide)
    (opOf_packXNN _ _ _))

theorem sne (x : Nibble) (nn : Byte) : Statement (.sne x nn) :=
  of_row rfl (matches_op (op := 0x4) (by decide)
    (opOf_packXNN _ _ _))

theorem seReg (x y : Nibble) : Statement (.seReg x y) :=
  of_row rfl (matches_op (op := 0x5) (by decide)
    (opOf_packXYN _ _ _ _))

theorem ldImm (x : Nibble) (nn : Byte) : Statement (.ldImm x nn) :=
  of_row rfl (matches_op (op := 0x6) (by decide)
    (opOf_packXNN _ _ _))

theorem addImm (x : Nibble) (nn : Byte) : Statement (.addImm x nn) :=
  of_row rfl (matches_op (op := 0x7) (by decide)
    (opOf_packXNN _ _ _))

theorem ldReg (x y : Nibble) : Statement (.ldReg x y) :=
  of_row rfl (matches_op_n (op := 0x8) (n := 0x0) (by decide)
    (opOf_packXYN _ _ _ _) (nOf_packXYN _ _ _ _))

theorem orReg (x y : Nibble) : Statement (.orReg x y) :=
  of_row rfl (matches_op_n (op := 0x8) (n := 0x1) (by decide)
    (opOf_packXYN _ _ _ _) (nOf_packXYN _ _ _ _))

theorem andReg (x y : Nibble) : Statement (.andReg x y) :=
  of_row rfl (matches_op_n (op := 0x8) (n := 0x2) (by decide)
    (opOf_packXYN _ _ _ _) (nOf_packXYN _ _ _ _))

theorem xorReg (x y : Nibble) : Statement (.xorReg x y) :=
  of_row rfl (matches_op_n (op := 0x8) (n := 0x3) (by decide)
    (opOf_packXYN _ _ _ _) (nOf_packXYN _ _ _ _))

theorem addReg (x y : Nibble) : Statement (.addReg x y) :=
  of_row rfl (matches_op_n (op := 0x8) (n := 0x4) (by decide)
    (opOf_packXYN _ _ _ _) (nOf_packXYN _ _ _ _))

theorem sub (x y : Nibble) : Statement (.sub x y) :=
  of_row rfl (matches_op_n (op := 0x8) (n := 0x5) (by decide)
    (opOf_packXYN _ _ _ _) (nOf_packXYN _ _ _ _))

theorem shr (x y : Nibble) : Statement (.shr x y) :=
  of_row rfl (matches_op_n (op := 0x8) (n := 0x6) (by decide)
    (opOf_packXYN _ _ _ _) (nOf_packXYN _ _ _ _))

theorem subn (x y : Nibble) : Statement (.subn x y) :=
  of_row rfl (matches_op_n (op := 0x8) (n := 0x7) (by decide)
    (opOf_packXYN _ _ _ _) (nOf_packXYN _ _ _ _))

theorem shl (x y : Nibble) : Statement (.shl x y) :=
  of_row rfl (matches_op_n (op := 0x8) (n := 0xE) (by decide)
    (opOf_packXYN _ _ _ _) (nOf_packXYN _ _ _ _))

theorem sneReg (x y : Nibble) : Statement (.sneReg x y) :=
  of_row rfl (matches_op (op := 0x9) (by decide)
    (opOf_packXYN _ _ _ _))

theorem ldI (nnn : Addr12) : Statement (.ldI nnn) :=
  of_row rfl (matches_op (op := 0xA) (by decide) (opOf_packNNN _ _))

theorem jpOff (nnn : Addr12) : Statement (.jpOff nnn) :=
  of_row rfl (matches_op (op := 0xB) (by decide)
    (opOf_packNNN _ _))

theorem rnd (x : Nibble) (nn : Byte) : Statement (.rnd x nn) :=
  of_row rfl (matches_op (op := 0xC) (by decide)
    (opOf_packXNN _ _ _))

theorem drw (x y n : Nibble) : Statement (.drw x y n) :=
  of_row rfl (matches_op (op := 0xD) (by decide)
    (opOf_packXYN _ _ _ _))

theorem skp (x : Nibble) : Statement (.skp x) :=
  of_row rfl (matches_op_nn (op := 0xE) (nn := 0x9E) (by decide)
    (opOf_packXNN _ _ _) (nnOf_packXNN _ _ _))

theorem sknp (x : Nibble) : Statement (.sknp x) :=
  of_row rfl (matches_op_nn (op := 0xE) (nn := 0xA1) (by decide)
    (opOf_packXNN _ _ _) (nnOf_packXNN _ _ _))

theorem ldVxDt (x : Nibble) : Statement (.ldVxDt x) :=
  of_row rfl (matches_op_nn (op := 0xF) (nn := 0x07) (by decide)
    (opOf_packXNN _ _ _) (nnOf_packXNN _ _ _))

theorem ldVxK (x : Nibble) : Statement (.ldVxK x) :=
  of_row rfl (matches_op_nn (op := 0xF) (nn := 0x0A) (by decide)
    (opOf_packXNN _ _ _) (nnOf_packXNN _ _ _))

theorem ldDt (x : Nibble) : Statement (.ldDt x) :=
  of_row rfl (matches_op_nn (op := 0xF) (nn := 0x15) (by decide)
    (opOf_packXNN _ _ _) (nnOf_packXNN _ _ _))

theorem ldSt (x : Nibble) : Statement (.ldSt x) :=
  of_row rfl (matches_op_nn (op := 0xF) (nn := 0x18) (by decide)
    (opOf_packXNN _ _ _) (nnOf_packXNN _ _ _))

theorem addI (x : Nibble) : Statement (.addI x) :=
  of_row rfl (matches_op_nn (op := 0xF) (nn := 0x1E) (by decide) (opOf_packXNN _ _ _) (nnOf_packXNN _ _ _))

theorem ldF (x : Nibble) : Statement (.ldF x) :=
  of_row rfl (matches_op_nn (op := 0xF) (nn := 0x29) (by decide)
    (opOf_packXNN _ _ _) (nnOf_packXNN _ _ _))

theorem ldB (x : Nibble) : Statement (.ldB x) :=
  of_row rfl (matches_op_nn (op := 0xF) (nn := 0x33) (by decide)
    (opOf_packXNN _ _ _) (nnOf_packXNN _ _ _))

theorem stRegs (x : Nibble) : Statement (.stRegs x) :=
  of_row rfl (matches_op_nn (op := 0xF) (nn := 0x55) (by decide)
    (opOf_packXNN _ _ _) (nnOf_packXNN _ _ _))

theorem ldRegs (x : Nibble) : Statement (.ldRegs x) :=
  of_row rfl (matches_op_nn (op := 0xF) (nn := 0x65) (by decide)
    (opOf_packXNN _ _ _) (nnOf_packXNN _ _ _))

theorem unknown (w : Word) : Statement (.unknown w) := by
  intro q hq hm
  have : q ∈ opcodeMap.filter (fun q => q.mnemonic == "UNKNOWN") := by
    simpa [hq, Instr.mnemonic] using hm
  have hnone : opcodeMap.filter (fun q => q.mnemonic == "UNKNOWN") = [] := by decide
  simp [hnone] at this

end Sys2Proof.Laws.EncodesInRow
end

