-- ==== Sys2Proof/Laws/Safety.lean ====
section
/-! SUPPORT. The small laws of the terms the statements use. -/

namespace Sys2Proof.Machine

open Sys2Proof

/-! ### Rows of the opcode map -/

/-- A row keyed on `op` alone. -/
theorem decodesAs_op {v : Word} {op : Nibble} {f : Word → Instr} (hv : v = packXNN op 0 0)
    (h : ∀ w, opOf w = op → decodeWord w = f w) : DecodesAs 0xF000 v f := by
  intro w hw
  subst hv
  exact h w ((mask_op w op).1 hw)

/-- A row keyed on `op` and `nn`. -/
theorem decodesAs_op_nn {v : Word} {op : Nibble} {nn : Byte} {f : Word → Instr} (hv : v = packXNN op 0 nn)
    (h : ∀ w, opOf w = op → nnOf w = nn → decodeWord w = f w) : DecodesAs 0xF0FF v f := by
  intro w hw
  subst hv
  exact h w ((mask_op_nn w op nn).1 hw).1 ((mask_op_nn w op nn).1 hw).2

/-- A row keyed on `op` and `n`. -/
theorem decodesAs_op_n {v : Word} {op n : Nibble} {f : Word → Instr} (hv : v = packXYN op 0 0 n)
    (h : ∀ w, opOf w = op → nOf w = n → decodeWord w = f w) : DecodesAs 0xF00F v f := by
  intro w hw
  subst hv
  exact h w ((mask_op_n w op n).1 hw).1 ((mask_op_n w op n).1 hw).2

/-! ### Frames -/

theorem ChangesOnly.refl (may : List Item) (s : State) : ChangesOnly may s s :=
  ⟨fun it _ => by cases it <;> simp [Keeps], rfl, rfl, rfl, rfl⟩

/-- Taking a fatal condition changes `FAULT` alone. -/
theorem changesOnly_takeFatal (s : State) (f : FaultLatch) (a : Option Nat) :
    ChangesOnly [.fault] s (s.takeFatal f a) :=
  ⟨fun it h => by cases it <;> simp_all [Keeps], rfl, rfl, rfl, rfl⟩

/-! ### Stored bytes -/

/-- What a store of consecutive bytes leaves at any address inside memory. -/
theorem storedByte_store (m : Memory) (base : Nat) {bs : List Byte} {f : Nat → Byte}
    (hf : ∀ k (h : k < bs.length), bs[k] = f k) {a : Nat} (ha : a < 4096) :
    StoredByte m base bs.length f a ((m.store base bs).get a) := by
  rw [Memory.get_store]
  constructor
  · rintro k hk rfl
    rw [if_pos (by omega), Nat.add_sub_cancel_left, List.getD_eq_getElem _ _ hk, hf k hk]
  · intro ho
    rw [if_neg (by omega), Memory.read_of_lt _ ha]

/-! ### The cells under a sprite -/

/-- A covered cell is one of the points the blit flips. -/
theorem spriteCovers_iff {s : State} {x y n : Nibble} (h : n.toNat = 0 ∨ s.base + n.toNat ≤ 4096)
    {c r : Nat} (hc : c < 64) (hr : r < 32) :
    SpriteCovers s x y n c r ↔
      ∃ p ∈ spritePoints ((s.getV x).toNat % 64) ((s.getV y).toNat % 32) (s.mem.slice s.base n.toNat),
        SameCell (c, r) p := by
  constructor
  · rintro ⟨k, j, b, hk, hj, hb, hbit, rfl, rfl⟩
    have hread := Memory.read_eq_some.1 hb
    refine ⟨_, mem_spritePoints.2 ⟨k, j, by simpa using hk, hj, ?_, rfl⟩, ?_⟩
    · rw [Memory.getElem_slice, hread.2]
      exact hbit
    · constructor <;> simp
  · rintro ⟨p, hp, h1, h2⟩
    obtain ⟨k, j, hk, hj, hbit, rfl⟩ := mem_spritePoints.1 hp
    have hk' : k < n.toNat := by simpa using hk
    rw [Memory.getElem_slice] at hbit
    refine ⟨k, j, _, hk', hj, Memory.read_of_lt _ (by omega), hbit, ?_, ?_⟩
    · simp only at h1
      omega
    · simp only at h2
      omega

end Sys2Proof.Machine
end

