-- ==== Sys2Proof/Tests/Slice0.lean ====
section
/-! SUPPORT. Tests: ill-formed terms, every constructor's decoding, single steps against the vectors of
spec/95_test_vectors.md, and for every statement with hypotheses a state and operands that meet them. -/

namespace Sys2Proof.Tests

open Sys2Proof Sys2Proof.Machine

/-! ## Helpers -/

/-- The reset state with some registers set. -/
def withRegs (l : List (Nibble × Byte)) : State := l.foldl (fun s p => s.setV p.1 p.2) State.reset

/-- `s` with a word at `PC` and one scripted step to come, with the keys and the draw `s` holds. -/
def loaded (w : Word) (s : State) : State :=
  { s with mem := s.mem.putWord s.pc.toNat w, pending := [.step s.keys s.rand] }

/-- Whether the outcome is a next state of which `p` is true. -/
def gives (r : Result) (p : State → Bool) : Bool :=
  match r with
  | .next t => p t
  | .fault _ => false
  | .refused _ => false

/-- One step on the word `w` from `s` gives a state of which `p` is true. -/
def runs (w : Word) (s : State) (p : State → Bool) : Bool := gives (step (loaded w s)) p

/-- Only these keys are held. -/
def keysHeld (l : List Nat) : Vector Bool 16 := Vector.ofFn fun k => l.contains k.val

/-- The other setting of every quirk, with an interval of 4 quanta. -/
def otherQuirks : Config.Settings := ⟨.y, .v0, true, 4⟩

/-- Reset with an interval of 4 quanta, so that quarters of an interval are whole. -/
def quarters (dt st : Byte) (acc : Nat) : State :=
  { State.reset with dt := dt, st := st, acc := acc, cfg := ⟨.x, .vx, false, 4⟩ }

/-! ## Well-formedness: the one check, on `unknown`, refuses the words of defined instructions -/

theorem test_wf_refuses_defined_words :
    Instr.wf (.unknown 0x00E0) = false ∧ Instr.wf (.unknown 0x1234) = false ∧
    Instr.wf (.unknown 0x8ABE) = false ∧ Instr.wf (.unknown 0x5121) = false ∧
    Instr.wf (.unknown 0xE19E) = false ∧ Instr.wf (.unknown 0xF165) = false := by decide

/-- spec/95_test_vectors.md 2.1. -/
theorem test_wf_admits_unrecognised_words :
    Instr.wf (.unknown 0x0123) = true ∧ Instr.wf (.unknown 0x8AB8) = true ∧
    Instr.wf (.unknown 0x8ABF) = true ∧ Instr.wf (.unknown 0xE19F) = true ∧
    Instr.wf (.unknown 0xF175) = true ∧ Instr.wf (.unknown 0xFFFF) = true := by decide

/-! ## Decoding: a word of every constructor, written out bit by bit from spec/30_encoding.md R65 -/

theorem test_decode_flow :
    decodeWord 0b0000000011101110 = .ret ∧ decodeWord 0b0001101010111100 = .jp 0xABC ∧
    decodeWord 0b0010101010111100 = .call 0xABC ∧ decodeWord 0b0011001100101010 = .se 3 0x2A ∧
    decodeWord 0b0100001100101010 = .sne 3 0x2A ∧ decodeWord 0b0101000100100000 = .seReg 1 2 ∧
    decodeWord 0b1001000100100000 = .sneReg 1 2 ∧ decodeWord 0b1011001000010000 = .jpOff 0x210 := by decide

theorem test_decode_alu :
    decodeWord 0b0110000111000011 = .ldImm 1 0xC3 ∧ decodeWord 0b0111000111111111 = .addImm 1 0xFF ∧
    decodeWord 0b1000000100100000 = .ldReg 1 2 ∧ decodeWord 0b1000000100100001 = .orReg 1 2 ∧
    decodeWord 0b1000000100100010 = .andReg 1 2 ∧ decodeWord 0b1000000100100011 = .xorReg 1 2 ∧
    decodeWord 0b1000000100100100 = .addReg 1 2 ∧ decodeWord 0b1000000100100101 = .sub 1 2 ∧
    decodeWord 0b1000000100100110 = .shr 1 2 ∧ decodeWord 0b1000000100100111 = .subn 1 2 ∧
    decodeWord 0b1000000100101110 = .shl 1 2 ∧ decodeWord 0b1100000100001111 = .rnd 1 0x0F := by decide

theorem test_decode_address_and_display :
    decodeWord 0b1010000100100011 = .ldI 0x123 ∧ decodeWord 0b1111000100011110 = .addI 1 ∧
    decodeWord 0b1111000100101001 = .ldF 1 ∧ decodeWord 0b0000000011100000 = .cls ∧
    decodeWord 0b1101011110100101 = .drw 7 0xA 5 := by decide

theorem test_decode_keys_and_timers :
    decodeWord 0b1110000110011110 = .skp 1 ∧ decodeWord 0b1110000110100001 = .sknp 1 ∧
    decodeWord 0b1111010100000111 = .ldVxDt 5 ∧ decodeWord 0b1111001100001010 = .ldVxK 3 ∧
    decodeWord 0b1111010100010101 = .ldDt 5 ∧ decodeWord 0b1111010100011000 = .ldSt 5 := by decide

theorem test_decode_memory_and_unknown :
    decodeWord 0b1111000000110011 = .ldB 0 ∧ decodeWord 0b1111001001010101 = .stRegs 2 ∧
    decodeWord 0b1111001001100101 = .ldRegs 2 ∧
    decodeWord 0b1111000101110101 = .unknown 0b1111000101110101 := by decide

/-- spec/95_test_vectors.md 2.1: nibbles that are not examined. -/
theorem test_decode_unexamined_nibbles :
    decodeWord 0x01E0 = .cls ∧ decodeWord 0x0FEE = .ret ∧ decodeWord 0x5121 = .seReg 1 2 ∧
    decodeWord 0x9ABF = .sneReg 0xA 0xB := by decide

/-- spec/95_test_vectors.md 2.1: unrecognised neighbours. -/
theorem test_decode_unrecognised :
    decodeWord 0x00EF = .unknown 0x00EF ∧ decodeWord 0x0000 = .unknown 0x0000 ∧
    decodeWord 0x8ABF = .unknown 0x8ABF ∧ decodeWord 0xE19F = .unknown 0xE19F ∧
    decodeWord 0xF185 = .unknown 0xF185 ∧ decodeWord 0xFFFF = .unknown 0xFFFF := by decide

/-- E1: the fields of 0xD7A5. -/
theorem test_fields :
    opOf 0xD7A5 = 0xD ∧ xOf 0xD7A5 = 7 ∧ yOf 0xD7A5 = 0xA ∧ nOf 0xD7A5 = 5 ∧ nnOf 0xD7A5 = 0xA5 ∧
    nnnOf 0xD7A5 = 0x7A5 := by decide

/-- A list of fewer than two bytes holds no instruction. -/
theorem test_decode_truncated : decode [] = .error .truncated ∧ decode [0x60] = .error .truncated := by decide

/-- Words of spec/95_test_vectors.md 2.1, encoded. -/
theorem test_encode :
    encode (.drw 7 0xA 5) = 0xD7A5 ∧ encode (.jpOff 0x2F0) = 0xB2F0 ∧ encode (.addI 1) = 0xF11E ∧
    encode (.seReg 1 2) = 0x5120 ∧ encode .ret = 0x00EE := by decide

/-! ## The host's two entries -/

theorem test_decodeTableWord :
    decodeTableWord 16 0xD7A5 = some (.drw 7 0xA 5) ∧ decodeTableWord 16 0xF265 = some (.ldRegs 2) ∧
    decodeTableWord 16 0x0000 = some (.unknown 0) := by decide

/-- The very next step after reset runs the placed word; the free host's keys and draw do not keep it from
running. -/
theorem test_withFetchWord :
    gives (step (State.reset.withFetchWord 16 0x1ABC)) (fun t => t.pc == 0xABC) = true ∧
    gives (step (State.reset.withFetchWord 16 0x61C3)) (fun t => t.getV 1 == 0xC3) = true ∧
    gives (step (State.reset.withFetchWord 16 0x00EE)) (fun t => t.fault == .stackUnderflow) = true := by
  decide

/-- The placed word fits the last two bytes of memory and no higher address. -/
theorem test_withFetchWord_edges :
    gives (step ({ State.reset with pc := 0xFFE }.withFetchWord 16 0x1ABC)) (fun t => t.pc == 0xABC) = true ∧
    ({ State.reset with pc := 0xFFF }.withFetchWord 16 0x1ABC).mem = [] := by decide

/-! ## Control transfer (spec/95_test_vectors.md 2.2) -/

/-- F1, F3. -/
theorem test_jp : runs 0x1ABC State.reset (fun t => t.pc == 0xABC) = true ∧
    runs 0x1203 State.reset (fun t => t.pc == 0x203) = true := by decide

/-- F5, F25. -/
theorem test_call :
    runs 0x2300 { State.reset with pc := 0xABC, stack := [0x202] }
      (fun t => t.pc == 0x300 && t.stack == [0xABE, 0x202]) = true ∧
    runs 0x2ABC { State.reset with pc := 0xFFE } (fun t => t.pc == 0xABC && t.stack == [0x1000]) = true := by
  decide

/-- F6, F7 and P6a. -/
theorem test_ret :
    runs 0x00EE { State.reset with pc := 0x300, stack := [0xABE, 0x202] }
      (fun t => t.pc == 0xABE && t.stack == [0x202]) = true ∧
    runs 0x00EE State.reset (fun t => t.fault == .stackUnderflow && t.pc == 0x200 && t.faultCode == 1) = true := by
  decide

/-- F8 to F11. -/
theorem test_se_sne :
    runs 0x332A (withRegs [(3, 0x2A)]) (fun t => t.pc == 0x204) = true ∧
    runs 0x332A (withRegs [(3, 0x2B)]) (fun t => t.pc == 0x202) = true ∧
    runs 0x432A (withRegs [(3, 0x2A)]) (fun t => t.pc == 0x202) = true ∧
    runs 0x432A (withRegs [(3, 0x2B)]) (fun t => t.pc == 0x204) = true := by decide

/-- F16 (an unexamined nibble), F14, F17, F19. -/
theorem test_seReg_sneReg :
    runs 0x512F (withRegs [(1, 7), (2, 7)]) (fun t => t.pc == 0x204) = true ∧
    runs 0x5120 (withRegs [(1, 7), (2, 8)]) (fun t => t.pc == 0x202) = true ∧
    runs 0x9120 (withRegs [(1, 7), (2, 8)]) (fun t => t.pc == 0x204) = true ∧
    runs 0x9440 (withRegs [(4, 9)]) (fun t => t.pc == 0x202) = true := by decide

/-- F20, F21, F22. -/
theorem test_jpOff :
    runs 0xB210 (withRegs [(2, 0x10), (0, 4)]) (fun t => t.pc == 0x220) = true ∧
    runs 0xB210 { withRegs [(2, 0x10), (0, 4)] with cfg := otherQuirks } (fun t => t.pc == 0x214) = true ∧
    runs 0xBFFF (withRegs [(0xF, 0xFF), (0, 0xFF)]) (fun t => t.pc == 0x10FE) = true := by decide

/-- F24: a skip to 0x1000 is no fault yet. -/
theorem test_skip_past_memory :
    runs 0x332A { withRegs [(3, 0x2A)] with pc := 0xFFC }
      (fun t => t.pc == 0x1000 && t.fault == .none) = true := by decide

/-! ## ALU (2.3); `VF` is 0xAA before where the vector says so -/

/-- A1, A3. -/
theorem test_ldImm_addImm :
    runs 0x61C3 (withRegs [(0xF, 0xAA)]) (fun t => t.getV 1 == 0xC3 && t.getV 0xF == 0xAA) = true ∧
    runs 0x7101 (withRegs [(1, 0xFF), (0xF, 0xAA)]) (fun t => t.getV 1 == 0 && t.getV 0xF == 0xAA) = true := by
  decide

/-- A7, A9, A10, A11. -/
theorem test_logic :
    runs 0x8120 (withRegs [(1, 0x11), (2, 0x22)]) (fun t => t.getV 1 == 0x22 && t.getV 2 == 0x22) = true ∧
    runs 0x8121 (withRegs [(1, 0xF0), (2, 0x0F), (0xF, 0xAA)])
      (fun t => t.getV 1 == 0xFF && t.getV 0xF == 0xAA) = true ∧
    runs 0x8122 (withRegs [(1, 0xF0), (2, 0x3C)]) (fun t => t.getV 1 == 0x30) = true ∧
    runs 0x8123 (withRegs [(1, 0xF0), (2, 0x3C)]) (fun t => t.getV 1 == 0xCC) = true := by decide

/-- E3, A17. -/
theorem test_addReg :
    runs 0x8124 (withRegs [(1, 0xFF), (2, 1)]) (fun t => t.getV 1 == 0 && t.getV 0xF == 1) = true ∧
    runs 0x8F24 (withRegs [(0xF, 0xF0), (2, 0x20)]) (fun t => t.getV 0xF == 1) = true := by decide

/-- E6, A20. -/
theorem test_sub :
    runs 0x8125 (withRegs [(1, 3), (2, 5)]) (fun t => t.getV 1 == 0xFE && t.getV 0xF == 0) = true ∧
    runs 0x8125 (withRegs [(1, 0x42), (2, 0x42)]) (fun t => t.getV 1 == 0 && t.getV 0xF == 1) = true := by
  decide

/-- A26, A27. -/
theorem test_subn :
    runs 0x8127 (withRegs [(1, 3), (2, 5)]) (fun t => t.getV 1 == 2 && t.getV 0xF == 1) = true ∧
    runs 0x8127 (withRegs [(1, 5), (2, 3)]) (fun t => t.getV 1 == 0xFE && t.getV 0xF == 0) = true := by decide

/-- A30, A34. -/
theorem test_shr :
    runs 0x8126 (withRegs [(1, 0xFF)]) (fun t => t.getV 1 == 0x7F && t.getV 0xF == 1) = true ∧
    runs 0x8126 { withRegs [(1, 0xAA), (2, 5)] with cfg := otherQuirks }
      (fun t => t.getV 1 == 2 && t.getV 2 == 5 && t.getV 0xF == 1) = true := by decide

/-- A38, A40. -/
theorem test_shl :
    runs 0x812E (withRegs [(1, 1)]) (fun t => t.getV 1 == 2 && t.getV 0xF == 0) = true ∧
    runs 0x812E { withRegs [(1, 0xAA), (2, 0xC1)] with cfg := otherQuirks }
      (fun t => t.getV 1 == 0x82 && t.getV 2 == 0xC1 && t.getV 0xF == 1) = true := by decide

/-- A42. -/
theorem test_rnd :
    runs 0xC10F { withRegs [(0xF, 0xAA)] with rand := 0xA7 }
      (fun t => t.getV 1 == 7 && t.getV 0xF == 0xAA) = true := by decide

/-! ## Address register (2.4) -/

/-- I1, I5, I10. -/
theorem test_index :
    runs 0xA123 State.reset (fun t => t.i == 0x123) = true ∧
    runs 0xF11E { withRegs [(1, 2)] with i := 0xFFFF } (fun t => t.i == 1) = true ∧
    runs 0xF129 (withRegs [(1, 0xFF)]) (fun t => t.i == 0x4FB) = true := by decide

/-! ## Display (2.5) -/

/-- The state of DR3: column 60, one row 0xA5 at 0x300. -/
def wrapStart : State := { withRegs [(0, 60)] with i := 0x300, mem := [(0x300, 0xA5)] }

/-- DR3: (60,0), (62,0), (1,0), (3,0) come on and their neighbours stay off. -/
theorem test_drw_wraps :
    runs 0xD011 wrapStart (fun t => t.fb.cell 60 0 && !t.fb.cell 61 0 && t.fb.cell 62 0 && !t.fb.cell 0 0) = true ∧
    runs 0xD011 wrapStart (fun t => t.fb.cell 1 0 && !t.fb.cell 2 0 && t.fb.cell 3 0 && t.getV 0xF == 0) = true := by
  decide

/-- A cell of the sprite that is already on goes off and sets `VF` (E8, the second draw). -/
theorem test_drw_collides :
    runs 0xD011 { wrapStart with fb := (State.reset.fb.flipCell 60 0).1 }
      (fun t => !t.fb.cell 60 0 && t.fb.cell 62 0 && t.getV 0xF == 1 && t.out.displayDirty) = true := by decide

/-- R151. -/
theorem test_cls :
    runs 0x00E0 { withRegs [(0xF, 0xAA)] with fb := (State.reset.fb.flipCell 63 31).1 }
      (fun t => !t.fb.cell 63 31 && t.getV 0xF == 0xAA && t.out.displayDirty) = true := by decide

/-! ## Keys and timers (2.6) -/

/-- A held key, and an index past the last key (decision D9). -/
theorem test_skp_sknp :
    runs 0xE19E { withRegs [(1, 0xF)] with keys := keysHeld [15] } (fun t => t.pc == 0x204) = true ∧
    runs 0xE1A1 { withRegs [(1, 0xF)] with keys := keysHeld [15] } (fun t => t.pc == 0x202) = true ∧
    runs 0xE19E { withRegs [(1, 0x10)] with keys := keysHeld [0] } (fun t => t.pc == 0x202) = true ∧
    runs 0xE1A1 { withRegs [(1, 0x10)] with keys := keysHeld [0] } (fun t => t.pc == 0x204) = true := by decide

/-- K12 and P5: the wait does not look at the keys, and a key held at the next step is latched. -/
theorem test_ldVxK :
    runs 0xF30A { State.reset with keys := keysHeld [5] }
      (fun t => t.blocked == some 3 && t.getV 3 == 0 && t.pc == 0x202) = true ∧
    gives (step { State.reset with blocked := some 3, pc := 0x202, pending := [.step (keysHeld [7, 9]) 0] })
      (fun t => t.blocked == none && t.getV 3 == 7 && t.pc == 0x202) = true := by decide

/-- K14 to K16. -/
theorem test_timer_moves :
    runs 0xF507 { State.reset with dt := 0x2C } (fun t => t.getV 5 == 0x2C && t.dt == 0x2C) = true ∧
    runs 0xF515 (withRegs [(5, 60)]) (fun t => t.dt == 60) = true ∧
    runs 0xF518 (withRegs [(5, 2)]) (fun t => t.st == 2 && t.soundOn) = true := by decide

/-- T2, T4, T5, T6 (one interval is 4 quanta). -/
theorem test_tick :
    (((quarters 5 1 0).tick 12).dt = 2 ∧ ((quarters 5 1 0).tick 12).st = 0) ∧
    (((quarters 5 0 2).tick 3).dt = 4 ∧ ((quarters 5 0 2).tick 3).acc = 1) ∧
    (((quarters 2 0 0).tick 40).dt = 0 ∧ ((quarters 2 0 0).tick 40).acc = 0) ∧
    ((quarters 0 0 2).tick 7).acc = 1 := by decide

/-- T9: a faulted block does not tick. -/
theorem test_tick_faulted :
    gives (step { quarters 5 0 0 with fault := .outOfBounds, pending := [.tick 4] })
      (fun t => t.dt == 5 && t.acc == 0) = true := by decide

/-! ## Memory transfer (2.7) -/

/-- M5 with V[0] = 123, M6. -/
theorem test_ldB :
    runs 0xF033 { withRegs [(0, 123)] with i := 0xFFD } (fun t => t.mem.read 0xFFD == some 1 &&
      t.mem.read 0xFFE == some 2 && t.mem.read 0xFFF == some 3 && t.fault == .none) = true ∧
    runs 0xF033 { withRegs [(0, 123)] with i := 0xFFE } (fun t => t.fault == .outOfBounds &&
      t.out.info == some 4096 && t.mem.read 0xFFE == some 0 && t.pc == 0x200) = true := by decide

/-- M8, M13. -/
theorem test_stRegs :
    runs 0xF255 { withRegs [(0, 0x11), (1, 0x22), (2, 0x33)] with i := 0x400, cfg := otherQuirks }
      (fun t => t.mem.slice 0x400 4 == [0x11, 0x22, 0x33, 0] && t.i == 0x403) = true ∧
    runs 0xF155 { State.reset with i := 0xFFFF }
      (fun t => t.fault == .outOfBounds && t.out.info == some 65535) = true := by decide

/-- M17 (the default font), M16. -/
theorem test_ldRegs :
    runs 0xF465 (withRegs [(5, 0x99)]) (fun t => t.getV 0 == 0xF0 && t.getV 1 == 0x90 && t.getV 4 == 0xF0 &&
      t.getV 5 == 0x99 && t.i == 0) = true ∧
    runs 0xF165 { withRegs [(0, 1), (1, 2)] with i := 0xFFF }
      (fun t => t.fault == .outOfBounds && t.getV 0 == 1 && t.getV 1 == 2) = true := by decide

/-! ## Unrecognised words (2.8), fetch (2.9) and reset -/

/-- UN3. -/
theorem test_unknown :
    runs 0x8129 (withRegs [(1, 5), (2, 9)]) (fun t => t.pc == 0x202 && t.getV 1 == 5 &&
      t.out.diag == some ⟨0x8129, 0x200⟩ && t.fault == .none) = true := by decide

/-- X3, P6c. -/
theorem test_fetch_past_memory :
    gives (step { State.reset with pc := 0xFFF, pending := [.step (keysHeld []) 0] })
      (fun t => t.fault == .outOfBounds && t.out.info == some 4096 && t.pc == 0xFFF) = true ∧
    gives (step { State.reset with pc := 0x1000, pending := [.step (keysHeld []) 0] })
      (fun t => t.fault == .outOfBounds && t.pc == 0x1000) = true := by decide

/-- X4. -/
theorem test_faulted_step :
    gives (step { State.reset with fault := .outOfBounds, pending := [.step (keysHeld [3]) 0] })
      (fun t => t.keys == keysHeld [] && t.fault == .outOfBounds && t.pc == 0x200) = true := by decide

/-- P7: execution at an odd address. -/
theorem test_odd_pc :
    runs 0x6A07 { State.reset with pc := 0x203 } (fun t => t.getV 0xA == 7 && t.pc == 0x205) = true := by decide

/-- X5, X7: `reset` leaves the faulted state, and the program may lie over the font. -/
theorem test_reset_transaction :
    gives (step { State.reset with fault := .stackUnderflow, pending :=
        [.reset Config.defaultFont [0x12, 0x00] 0 Config.defaultSettings] })
      (fun t => t.fault == .none && t.pc == 0x200) = true ∧
    (loadImage Config.defaultFont [0x12, 0x00] 0).get 0 = 0x12 ∧
    (loadImage Config.defaultFont [0x12, 0x00] 0).get 1 = 0x00 ∧
    (loadImage Config.defaultFont [0x12, 0x00] 0).get 2 = 0x90 := by
  simp only [loadImage, Memory.get_store]
  decide

/-- X6. -/
theorem test_reset_refused :
    State.reset.resetWith Config.defaultFont [0, 0] 0xFFF Config.defaultSettings = .refused .imageDoesNotFit :=
  rfl

/-- R53: a store over the low byte of the next word alone, by `LD_B` with `I = P + 3` and V[0] = 123, and by
`ST_REGS` with `x = 0`. -/
theorem test_store_over_next_word :
    gives (exec (.ldB 0) { withRegs [(0, 123)] with i := 0x203 }) (fun t => t.fetch.toOption == some 0x0001) = true ∧
    gives (exec (.stRegs 0) { withRegs [(0, 0x12)] with i := 0x203 })
      (fun t => t.fetch.toOption == some 0x0012) = true := by decide

/-- R24: column 1 of row 0 is element 1, and column 0 of row 1 is element 64. -/
theorem test_read_out :
    ({ State.reset with fb := (State.reset.fb.flipCell 1 0).1 } : State).fbFlat[1]? = some true ∧
    ({ State.reset with fb := (State.reset.fb.flipCell 0 1).1 } : State).fbFlat[64]? = some true := by decide

/-- R26 and R27. -/
theorem test_codes :
    State.reset.faultCode = 0 ∧ ({ State.reset with fault := .stackUnderflow } : State).faultCode = 1 ∧
    ({ State.reset with fault := .outOfBounds } : State).faultCode = 2 ∧ State.reset.blockedCode = 0x10 ∧
    ({ State.reset with blocked := some 0xF } : State).blockedCode = 0x0F := by decide

/-- A scripted tick and a scripted reset are carried out by `step`: T1, and R230. -/
theorem test_scripted :
    gives (step { quarters 5 1 0 with blocked := some 3, pending := [.tick 4] })
      (fun t => t.dt == 4 && t.st == 0 && t.blocked == some 3 && t.pending == []) = true ∧
    gives (step { withRegs [(1, 9)] with pending := [.reset Config.defaultFont [] 0x200 otherQuirks, .tick 1] })
      (fun t => t.getV 1 == 0 && t.cfg == otherQuirks && t.pending == [.tick 1]) = true := by decide

/-- A store of the byte an unlisted address reads as unlists the address, so equal memories are equal data. -/
theorem test_memory_canonical :
    (Memory.set [(0x300, 5)] 0x300 0) = [] ∧ (Memory.set [(0x300, 5)] 0x2FF 7) = [(0x2FF, 7), (0x300, 5)] ∧
    (Memory.set [] 0 0x12) = [(0, 0x12)] ∧ (Memory.set [] 0 0xF0) = [] := by decide

/-! ## Witnesses: for every statement with hypotheses, operands and a state that meet them, clause by clause
at the ends of the ranges -/

theorem witness_DecodeEncodeRoundTrip :
    Instr.wf (.drw 0xF 0xF 0xF) = true ∧ Instr.wf (.unknown 0xFFFF) = true := by decide

/-- Every `DecodesAs` and every row of the map: its own `value` matches it. -/
theorem witness_rows : opcodeMap.all (fun r => r.matches r.value) = true ∧ opcodeMap.length = 34 := by decide

/-- `DecodingFollowsTheOpcodeMap`, the three clauses: a row, two rows for one word, no row. -/
theorem witness_DecodingFollowsTheOpcodeMap :
    (⟨"SHL", 0xF00F, 0x800E⟩ ∈ opcodeMap ∧ OpcodeRow.matches ⟨"SHL", 0xF00F, 0x800E⟩ 0x8ABE = true) ∧
    opcodeMap.all (fun r => r.matches 0x8ABF == false) = true := by decide

/-- The last fetchable word, with a scripted step and with the free host. -/
theorem witness_StepRunsTheDecodedInstruction :
    let s : State := { State.reset with pc := 0xFFE, mem := [(0xFFE, 0x60), (0xFFF, 0x07)] }
    s.fault = .none ∧ s.blocked = none ∧ s.mem.read s.pc.toNat = some 0x60 ∧
    s.mem.read (s.pc.toNat + 1) = some 0x07 ∧ decode [0x60, 0x07] = .ok (.ldImm 0 7, []) ∧ s.pending = [] ∧
    ({ s with pending := [.step (keysHeld [1]) 3] } : State).pending = .step (keysHeld [1]) 3 :: [] := by
  refine ⟨rfl, rfl, ?_, ?_, ?_, rfl, rfl⟩ <;> decide

theorem witness_FetchIsBigEndianAndBounded :
    ({ State.reset with pc := 0xFFE } : State).pc.toNat < 4095 ∧
    4095 ≤ ({ State.reset with pc := 0xFFF } : State).pc.toNat ∧
    ({ State.reset with pc := 0xFFF } : State).fault = .none ∧
    ({ State.reset with pc := 0xFFF } : State).blocked = none := by decide

/-- No key; the highest key alone; the lowest among several. -/
theorem witness_KeyBlockLatchesTheLeastHeldKey :
    ({ State.reset with blocked := some 0xF } : State).fault = .none ∧
    ({ State.reset with blocked := some 0xF } : State).blocked = some 0xF ∧
    (∀ k : Fin 16, (keysHeld [])[k] = false) ∧
    ((keysHeld [15])[(15 : Fin 16)] = true ∧ ∀ j : Fin 16, j < 15 → (keysHeld [15])[j] = false) ∧
    ((keysHeld [0, 9])[(0 : Fin 16)] = true ∧ ∀ j : Fin 16, j < 0 → (keysHeld [0, 9])[j] = false) := by decide

theorem witness_FaultedBlockIgnoresStepAndTick :
    ({ State.reset with fault := .outOfBounds } : State).fault ≠ .none ∧
    ({ State.reset with fault := .stackUnderflow } : State).fault ≠ .none := by decide

/-- A fetch past memory and a `RET` on an empty stack. -/
theorem witness_FatalStepKeepsEverythingElse :
    (State.reset.fault = .none ∧
      ∃ t, ({ State.reset with pc := 0x1000 } : State).cycle (keysHeld [3]) 0 = .next t ∧ t.fault ≠ .none) ∧
    ∃ t, ({ State.reset with mem := [(0x201, 0xEE)] } : State).cycle (keysHeld [3]) 0 = .next t ∧
      t.fault ≠ .none := by
  refine ⟨⟨rfl, _, rfl, ?_⟩, _, rfl, ?_⟩ <;> decide

/-- Every form that raises, at its first raising operand, and the same form one below it. -/
theorem witness_FatalConditionsAreExactlyThese :
    (∃ t, exec .ret State.reset = .next t ∧ t.fault = .stackUnderflow) ∧
    (∃ t, exec (.drw 0 0 1) { State.reset with i := 0x1000 } = .next t ∧ t.fault = .outOfBounds) ∧
    (∃ t, exec (.drw 0 0 1) { State.reset with i := 0xFFF } = .next t ∧ t.fault = .none) ∧
    (∃ t, exec (.ldB 0) { State.reset with i := 0xFFE } = .next t ∧ t.fault = .outOfBounds) ∧
    (∃ t, exec (.ldB 0) { State.reset with i := 0xFFD } = .next t ∧ t.fault = .none) ∧
    (∃ t, exec (.stRegs 0xF) { State.reset with i := 0xFF1 } = .next t ∧ t.fault = .outOfBounds) ∧
    (∃ t, exec (.ldRegs 0xF) { State.reset with i := 0xFF0 } = .next t ∧ t.fault = .none) := by
  refine ⟨⟨_, rfl, ?_⟩, ⟨_, rfl, ?_⟩, ⟨_, rfl, ?_⟩, ⟨_, rfl, ?_⟩, ⟨_, rfl, ?_⟩, ⟨_, rfl, ?_⟩, ⟨_, rfl, ?_⟩⟩ <;>
    decide

/-- Each item is written by some instruction of its column. -/
theorem witness_ItemsAreWrittenOnlyAsTabled :
    (∃ t, exec (.stRegs 0) { withRegs [(0, 1)] with i := 0x300 } = .next t ∧
      ¬Keeps .mem { withRegs [(0, 1)] with i := 0x300 } t) ∧
    (∃ t, exec (.ldI 1) State.reset = .next t ∧ ¬Keeps .i State.reset t) ∧
    (∃ t, exec (.call 1) State.reset = .next t ∧ ¬Keeps .stack State.reset t) ∧
    (∃ t, exec (.ldDt 0) (withRegs [(0, 1)]) = .next t ∧ ¬Keeps .dt (withRegs [(0, 1)]) t) ∧
    (∃ t, exec (.ldSt 0) (withRegs [(0, 1)]) = .next t ∧ ¬Keeps .st (withRegs [(0, 1)]) t) ∧
    (∃ t, exec (.ldVxK 0) State.reset = .next t ∧ ¬Keeps .blocked State.reset t) ∧
    (∃ t, exec .ret State.reset = .next t ∧ ¬Keeps .fault State.reset t) := by
  refine ⟨⟨_, rfl, fun h => ?_⟩, ⟨_, rfl, ?_⟩, ⟨_, rfl, ?_⟩, ⟨_, rfl, ?_⟩, ⟨_, rfl, ?_⟩, ⟨_, rfl, ?_⟩,
    ⟨_, rfl, ?_⟩⟩
  · exact absurd (h 0x300) (by decide)
  all_goals simp only [Keeps]
  all_goals decide

/-- The framebuffer is changed by `DRW`, and `I` by a block transfer under `LOADSTORE_INC`. -/
theorem witness_ItemsAreWrittenOnlyAsTabled_more :
    (∃ t, exec (.drw 0 1 1) wrapStart = .next t ∧ ¬Keeps .fb wrapStart t) ∧
    (∃ t, exec (.ldRegs 0) { State.reset with cfg := otherQuirks } = .next t ∧
      ¬Keeps .i { State.reset with cfg := otherQuirks } t) := by
  refine ⟨⟨_, rfl, fun h => ?_⟩, ⟨_, rfl, ?_⟩⟩
  · have : wrapStart.fb.cell 60 0 = true := by
      rw [← show _ = wrapStart.fb from h]
      decide
    exact absurd this (by decide)
  · simp only [Keeps]
    decide

/-- A register above those loaded; `VF` under an instruction that defines no flag. -/
theorem witness_RegistersChangeOnlyAsNamed :
    (∃ t, exec (.ldRegs 2) State.reset = .next t) ∧ Instr.writesReg 3 (.ldRegs 2) = false ∧
    (∃ t, exec (.orReg 1 2) State.reset = .next t) ∧ Instr.writesReg 0xF (.orReg 1 2) = false ∧
    Instr.definesFlag (.orReg 1 2) = false := by
  refine ⟨⟨_, rfl⟩, ?_, ⟨_, rfl⟩, ?_, ?_⟩ <;> decide

/-- `CALL` meets every clause but reads none of the items; `SKP` meets the clause on the draw. -/
theorem witness_UnreadItemsDoNotMatter :
    (∀ x, Instr.call 1 ≠ .skp x ∧ Instr.call 1 ≠ .sknp x) ∧ (∀ x nn, Instr.skp 1 ≠ .rnd x nn) ∧
    (∀ x, Instr.call 1 ≠ .ldVxDt x ∧ Instr.call 1 ≠ .ldDt x) ∧ (∀ x, Instr.call 1 ≠ .ldSt x) ∧
    (∀ x, Instr.call 1 ≠ .ldB x ∧ Instr.call 1 ≠ .stRegs x ∧ Instr.call 1 ≠ .ldRegs x) ∧
    (∀ x y n, Instr.call 1 ≠ .drw x y n) ∧ Instr.call 1 ≠ .cls := by
  refine ⟨?_, ?_, ?_, ?_, ?_, ?_, ?_⟩ <;> intros <;> simp

/-- Both refusals of `StepStopsOnlyOnRefusedReset`, and a transaction that is none. -/
theorem witness_StepStopsOnlyOnRefusedReset :
    step { State.reset with pending := [.reset [] [] 0 Config.defaultSettings] } = .refused .imageDoesNotFit ∧
    step { State.reset with pending := [.reset Config.defaultFont [] 0 ⟨.x, .vx, false, 0⟩] } =
      .refused .tickIntervalNotPositive ∧
    ∃ t, step { State.reset with pending := [.tick 1] } = .next t := ⟨rfl, rfl, _, rfl⟩

theorem witness_RegisterWritesAreIdempotentAndIsolated : (0xF : Nibble) ≠ 0xE ∧ (0x0 : Nibble) ≠ 0x1 := by decide

/-- The last address inside and the first outside. -/
theorem witness_MemoryReadsWhatWasWritten : 4095 < 4096 ∧ 4094 ≠ 4095 ∧ 4096 ≤ 4096 := by decide

theorem witness_RetPopsOrUnderflows :
    ({ State.reset with stack := [0xABE] } : State).stack = 0xABE :: [] ∧ State.reset.stack = [] := by decide

theorem witness_JumpAndCallGoToTheAddress : (0xFFF : Addr12).toNat = 4095 := by decide

/-- F22: the sum is past memory. -/
theorem witness_JumpWithOffsetAddsTheRegister_past :
    ∃ t, exec (.jpOff 0xFFF) (withRegs [(0xF, 0xFF)]) = .next t ∧ 4095 ≤ t.pc.toNat := by
  refine ⟨_, rfl, ?_⟩
  decide

/-- Both settings of `JUMP_REG`, with the top register selected by `nnn[11:8]`. -/
theorem witness_JumpWithOffsetAddsTheRegister :
    State.reset.cfg.jumpReg = .vx ∧ (0xF : Nibble).toNat = (0xFFF : Addr12).toNat / 256 ∧
    ({ State.reset with cfg := otherQuirks } : State).cfg.jumpReg = .v0 := by decide

/-- Both settings of `SHIFT_SRC`: the source the hypotheses name. -/
theorem witness_ShiftsMoveOneBitIntoTheFlag :
    (let s := withRegs [(1, 0x81), (2, 5)]
     (s.cfg.shiftSrc = .x → (0x81 : Byte) = s.getV 1) ∧ (s.cfg.shiftSrc = .y → (0x81 : Byte) = s.getV 2)) ∧
    (let s : State := { withRegs [(1, 0x81), (2, 5)] with cfg := otherQuirks }
     (s.cfg.shiftSrc = .x → (5 : Byte) = s.getV 1) ∧ (s.cfg.shiftSrc = .y → (5 : Byte) = s.getV 2)) := by decide

theorem witness_RandomIsTheMaskedDraw :
    (0x0F : Byte) &&& ~~~0x0F = 0 ∧ ¬((0x1F : Byte) &&& ~~~0x0F = 0) := by decide

theorem witness_FlipTogglesOneWrappedCell :
    63 < 64 ∧ 31 < 32 ∧ (63 ≠ 64 % 64 ∨ 31 ≠ 31 % 32) ∧ (63 ≠ 63 % 64 ∨ 31 ≠ 32 % 32) := by decide

/-- Ranges of `DRW`: no row at all, the last byte of memory, one byte more. -/
theorem witness_DrwXorsTheSprite_ranges :
    (0 : Nibble).toNat = 0 ∧ ({ State.reset with i := 0xFFF } : State).base + (1 : Nibble).toNat ≤ 4096 ∧
    1 ≤ (2 : Nibble).toNat ∧ 4096 ≤ ({ State.reset with i := 0xFFF } : State).base + (2 : Nibble).toNat - 1 := by
  decide

/-- The wrapped cell (3,0) is under the sprite of DR3 and was off. -/
theorem witness_DrwXorsTheSprite_covers :
    SpriteCovers wrapStart 0 1 1 3 0 ∧ wrapStart.fb.cell 3 0 = false := by
  refine ⟨⟨0, 7, 0xA5, ?_, ?_, ?_, ?_, ?_, ?_⟩, ?_⟩ <;> decide

/-- The cell (2,0) is not: bit 1 of 0xA5 is 0. -/
theorem witness_DrwXorsTheSprite_misses : ¬SpriteCovers wrapStart 0 1 1 2 0 := by
  rintro ⟨k, j, b, hk, hj, hb, hbit, hc, -⟩
  obtain rfl : k = 0 := by
    have : (1 : Nibble).toNat = 1 := rfl
    omega
  obtain rfl : b = 0xA5 := by
    have : wrapStart.mem.read (wrapStart.base + 0) = some 0xA5 := by decide
    rw [this] at hb
    injection hb with hb
    exact hb.symm
  obtain rfl : j = 6 := by
    have : (wrapStart.getV 0).toNat = 60 := by decide
    omega
  exact absurd hbit (by decide)

/-- A hit: the same start with (60,0) on. -/
theorem witness_DrwXorsTheSprite_hits :
    ∃ c r, SpriteCovers { wrapStart with fb := (State.reset.fb.flipCell 60 0).1 } 0 1 1 c r ∧
      (State.reset.fb.flipCell 60 0).1.cell c r = true := by
  refine ⟨60, 0, ⟨0, 0, 0xA5, ?_, ?_, ?_, ?_, ?_, ?_⟩, ?_⟩ <;> decide

theorem witness_DrawingTwiceRestoresTheFramebuffer :
    wrapStart.base + (1 : Nibble).toNat ≤ 4096 ∧
    ∃ t, exec (.drw 0 1 1) wrapStart = .next t ∧ t.getV 0 = wrapStart.getV 0 ∧ t.getV 1 = wrapStart.getV 1 := by
  refine ⟨?_, _, rfl, ?_, ?_⟩ <;> decide

/-- The last key, and the first index that names none. -/
theorem witness_KeySkipsFollowTheHeldKeys :
    (let s : State := { withRegs [(1, 15)] with keys := keysHeld [15] }
     (∀ k : Fin 16, (s.getV 1).toNat = k.val → true = s.keys[k]) ∧ (16 ≤ (s.getV 1).toNat → true = false)) ∧
    (let s : State := { withRegs [(1, 16)] with keys := keysHeld [0] }
     (∀ k : Fin 16, (s.getV 1).toNat = k.val → false = s.keys[k]) ∧ (16 ≤ (s.getV 1).toNat → false = false)) := by
  decide

theorem witness_WaitForKeyBlocksUntilAKeyIsHeld :
    State.reset.fault = .none ∧ (∀ k : Fin 16, (keysHeld [])[k] = false) ∧
    ((keysHeld [7, 9])[(7 : Fin 16)] = true ∧ ∀ j : Fin 16, j < 7 → (keysHeld [7, 9])[j] = false) ∧
    (State.reset.mem.read (State.reset.pc + 2).toNat = some 0 ∧
      State.reset.mem.read ((State.reset.pc + 2).toNat + 1) = some 0) := by decide

/-- `TickIsTheLoopOfWholeIntervals`, `TicksAddUp` and `SoundFollowsTheSoundTimer`. -/
theorem witness_ticks : (quarters 5 1 2).fault = .none ∧ 0 < (quarters 5 1 2).cfg.tickInterval := by decide

/-- E11: a quarter, a quarter and a half of an interval. -/
theorem witness_OneIntervalDecrementsEachTimerOnce :
    (quarters 7 0 0).fault = .none ∧ (quarters 7 0 0).acc = 0 ∧ 0 < (quarters 7 0 0).cfg.tickInterval ∧
    [1, 1].sum + 2 = (quarters 7 0 0).cfg.tickInterval := by decide

theorem witness_DecimalDigitsAreStored :
    ({ State.reset with i := 0xFFD } : State).base + 2 < 4096 ∧
    4096 ≤ ({ State.reset with i := 0xFFE } : State).base + 2 := by decide

/-- `RegistersAreStoredAtTheIndex` and `RegistersAreLoadedFromTheIndex`. -/
theorem witness_block_transfers :
    ({ State.reset with i := 0xFF0 } : State).base + (0xF : Nibble).toNat < 4096 ∧
    4096 ≤ ({ State.reset with i := 0xFF1 } : State).base + (0xF : Nibble).toNat ∧
    4096 ≤ ({ State.reset with i := 0x1000 } : State).base + (0x0 : Nibble).toNat := by decide

/-- The last next instruction inside memory; a store of its low byte alone by `ST_REGS`, and of both bytes and
one more by `LD_B`. -/
theorem witness_StoresAreSeenByTheNextFetch :
    (let s : State := { State.reset with pc := 0xFFC, i := 0xFFF }
     s.pc.toNat + 3 < 4096 ∧ s.base + (0 : Nibble).toNat < 4096 ∧ s.pc.toNat + 3 = s.base + 0 ∧
     s.pc.toNat + 2 < s.base) ∧
    (let s : State := { State.reset with pc := 0xFFC, i := 0xFFD }
     s.base + 2 < 4096 ∧ s.pc.toNat + 2 = s.base + 1 ∧ s.pc.toNat + 3 = s.base + 2) ∧
    (let s : State := { State.reset with pc := 0x200, i := 0x1FC }
     s.base + 3 ≤ s.pc.toNat + 2) := by decide

/-- Every form of the next transaction, in a faulted and a blocked state too. -/
theorem witness_StepCarriesOutTheNextTransaction :
    ({ State.reset with fault := .outOfBounds, pending := [.step (keysHeld [3]) 7] } : State).pending =
      .step (keysHeld [3]) 7 :: [] ∧
    ({ State.reset with blocked := some 1, pending := [.tick 4] } : State).pending = .tick 4 :: [] ∧
    ({ State.reset with fault := .stackUnderflow,
                        pending := [.reset [] [1] 2 otherQuirks] } : State).pending =
      .reset [] [1] 2 otherQuirks :: [] ∧
    State.reset.pending = [] := ⟨rfl, rfl, rfl, rfl⟩

/-- The last cell. -/
theorem witness_FramebufferReadsOutRowMajor : 63 < 64 ∧ 31 < 32 ∧ 31 * 64 + 63 = 2047 := by decide

theorem witness_UnknownWordIsAReportedNoOp :
    unrecognised 0x0000 = true ∧ unrecognised 0x8AB8 = true ∧ unrecognised 0xE100 = true ∧
    unrecognised 0xFFFF = true := by decide

/-- E14: the longest program that fits at 0x200. -/
theorem witness_ResetLoadsFontThenProgram :
    Config.defaultFont.length = 80 ∧
    (0x200 : Word).toNat + (List.replicate 3584 (0 : Byte)).length ≤ 4096 ∧
    0 < Config.defaultSettings.tickInterval := by
  refine ⟨rfl, ?_, ?_⟩
  · rw [List.length_replicate]
    decide
  · decide

/-- E14, X6: one byte more at 0x200, two bytes at 0xFFF, and a font of the wrong length. -/
theorem witness_ResetRefusesAnImageThatDoesNotFit :
    4096 < (0x200 : Word).toNat + (List.replicate 3585 (0 : Byte)).length ∧
    4096 < (0xFFF : Word).toNat + [(0 : Byte), 0].length ∧ ([] : List Byte).length ≠ 80 := by
  refine ⟨?_, ?_, ?_⟩
  · rw [List.length_replicate]
    decide
  all_goals decide

/-- A state with memory listed, time carried and a return address, away from reset, about to store. -/
def storing : State :=
  { quarters 5 1 3 with
    i := 0x300
    pc := 0xFFE
    stack := [0x1000]
    mem := [(0x300, 7), (0xFFE, 0xF1), (0xFFF, 0x55)]
    pending := [.step (keysHeld []) 0] }

/-- The hypotheses of the three invariants. -/
theorem witness_invariants :
    storing.MemInv ∧ storing.TimeInv ∧ storing.FlowInv ∧ gives (step storing) (fun t => t.pc == 0x1000) = true := by
  unfold State.MemInv State.TimeInv State.FlowInv
  have hstack : ∀ a ∈ storing.stack, a.toNat ≤ 4096 := by
    intro a h
    have ha : a = 0x1000 := List.mem_singleton.1 h
    subst ha
    decide
  refine ⟨?_, ?_, ⟨?_, hstack⟩, ?_⟩ <;> decide

end Sys2Proof.Tests
end

/-! ## Register writes (spec/10_state.md R13) -/

namespace Sys2Proof.Machine

open Sys2Proof

/-- Of two writes to one register the later one stands. -/
@[simp] theorem State.setV_setV (s : State) (x : Nibble) (b c : Byte) :
    (s.setV x b).setV x c = s.setV x c :=
  congrArg (fun v => { s with v }) (Vector.set_set b x.isLt)

/-- Settles O16: the later of two writes stands, and a read after a write distinguishes the register written. -/
theorem registerWritesAreIdempotentAndIsolated : Obligations.RegisterWritesAreIdempotentAndIsolated := by
  intro s x b
  refine ⟨s.setV_setV x b b, ?_, fun y hyx => ?_⟩
  · rw [State.getV_setV, if_pos rfl]
  · rw [State.getV_setV, if_neg hyx]

end Sys2Proof.Machine

/-! ## Byte reads and writes of memory (spec/20_memory.md R42, R43) -/

namespace Sys2Proof.Machine

open Sys2Proof

/-- The address written reads the byte stored. -/
theorem Memory.read_set_self (m : Memory) {a : Nat} (h : a < 4096) (b : Byte) :
    (m.set a b).read a = some b := by
  rw [Memory.read_of_lt _ h, Memory.get_set, if_pos rfl]

/-- The frame of a byte write: every other address, out of bounds or not, reads as before. -/
theorem Memory.read_set_of_ne (m : Memory) {a k : Nat} (h : k ≠ a) (b : Byte) :
    (m.set a b).read k = m.read k :=
  Memory.read_congr (by rw [Memory.get_set, if_neg h])

/-- Settles O17: below 4096 the bounds check passes and a read after a write distinguishes the address written;
from 4096 on the check answers the address itself. -/
theorem memoryReadsWhatWasWritten : Obligations.MemoryReadsWhatWasWritten := by
  intro m a b
  refine ⟨fun hin => ⟨?_, ?_, ?_, ?_⟩, fun hout => ⟨?_, ?_⟩⟩
  · exact Memory.firstOutside_eq_none.2 (by omega)
  · exact ⟨m.get a, m.read_of_lt hin⟩
  · exact m.read_set_self hin b
  · exact fun k hk => m.read_set_of_ne hk b
  · exact Memory.firstOutside_eq_some.2 (by omega)
  · exact m.read_of_ge hout

end Sys2Proof.Machine

/-! ## The fields of a word rebuild it (spec/30_encoding.md R62) -/

namespace Sys2Proof

/-- `w = op*4096 + nnn` (R62). -/
theorem toNat_eq_op_nnn (w : Word) : w.toNat = (opOf w).toNat * 4096 + (nnnOf w).toNat := by
  rw [opOf_toNat, nnnOf_toNat, Nat.div_add_mod']

/-- `nn = y*16 + n` (R62). -/
theorem nnOf_toNat_eq_y_n (w : Word) : (nnOf w).toNat = (yOf w).toNat * 16 + (nOf w).toNat := by
  rw [nnOf_toNat, yOf_toNat, nOf_toNat]
  omega

/-- `nnn = x*256 + y*16 + n` (R62). -/
theorem nnnOf_toNat_eq_x_y_n (w : Word) :
    (nnnOf w).toNat = (xOf w).toNat * 256 + (yOf w).toNat * 16 + (nOf w).toNat := by
  rw [nnnOf_toNat, xOf_toNat, yOf_toNat, nOf_toNat]
  omega

theorem packNNN_fields (w : Word) : packNNN (opOf w) (nnnOf w) = w :=
  BitVec.eq_of_toNat_eq (by rw [packNNN_toNat, ← toNat_eq_op_nnn])

theorem packXYN_fields (w : Word) : packXYN (opOf w) (xOf w) (yOf w) (nOf w) = w :=
  BitVec.eq_of_toNat_eq (by rw [packXYN_toNat, ← nnnOf_toNat_eq_x_y_n, ← toNat_eq_op_nnn])

/-- Settles O2: each field is a digit block of the word's number, and a pack is determined by its number. -/
theorem fieldsRebuildTheWord : Obligations.FieldsRebuildTheWord := fun w =>
  ⟨toNat_eq_op_nnn w, nnnOf_toNat_eq_x_y_n w, nnOf_toNat_eq_y_n w, packXYN_fields w, packNNN_fields w⟩

end Sys2Proof

/-! ## The key-block phase (spec/40_cycle_engine.md R85) -/

namespace Sys2Proof.Machine

open Sys2Proof

theorem State.keyBlockPhase_of_none {s : State} (h : firstHeld s.keys = none) (x : Nibble) :
    s.keyBlockPhase x = { s with out := .quiet } := by
  simp only [State.keyBlockPhase, h]

theorem State.keyBlockPhase_of_some {s : State} {k : Fin 16} (h : firstHeld s.keys = some k) (x : Nibble) :
    s.keyBlockPhase x = { s.setV x (BitVec.ofNat 8 k.val) with blocked := none, out := .quiet } := by
  simp only [State.keyBlockPhase, h]

@[simp] theorem State.keyBlockPhase_out (s : State) (x : Nibble) : (s.keyBlockPhase x).out = .quiet := by
  cases h : firstHeld s.keys with
  | none => rw [State.keyBlockPhase_of_none h]
  | some k => rw [State.keyBlockPhase_of_some h]

/-- What a step reports is no item of the block. -/
theorem changesOnly_setOut (s : State) (o : StepResult) : ChangesOnly [] s { s with out := o } :=
  ⟨fun it _ => by cases it <;> simp [Keeps], rfl, rfl, rfl, rfl⟩

/-- The frame of the latch: a register is written and the block is cleared, whatever is reported. -/
theorem changesOnly_latchKey (s : State) (x : Nibble) (b : Byte) (o : StepResult) :
    ChangesOnly [.v, .blocked] s { s.setV x b with blocked := none, out := o } :=
  ⟨fun it h => by cases it <;> simp_all [Keeps], rfl, rfl, rfl, rfl⟩

/-- Settles O8: a blocked step is the key-block phase, and the key scan finds no key or the least held one. -/
theorem keyBlockLatchesTheLeastHeldKey : Obligations.KeyBlockLatchesTheLeastHeldKey := by
  intro s x keys rand hfault hblocked
  refine ⟨_, State.cycle_of_blocked hfault hblocked keys rand, State.keyBlockPhase_out _ x,
    fun hnone => ?_, fun k hk hleast => ?_⟩
  · have hscan : firstHeld (s.supply keys rand).keys = none := firstHeld_eq_none.2 hnone
    rw [State.keyBlockPhase_of_none hscan]
    exact changesOnly_setOut _ _
  · have hscan : firstHeld (s.supply keys rand).keys = some k := firstHeld_eq_some.2 ⟨hk, hleast⟩
    rw [State.keyBlockPhase_of_some hscan]
    exact ⟨fun r => (s.supply keys rand).getV_setV x r _, rfl, changesOnly_latchKey _ x _ _⟩

end Sys2Proof.Machine

/-! ## Jumps, calls and skips (spec/41_flow.md R102 to R105, R108) -/

namespace Sys2Proof.Machine

open Sys2Proof

/-! ### What each meaning answers -/

theorem exec_jp (nnn : Addr12) (s : State) : exec (.jp nnn) s = .next { s.advance with pc := zextAddr nnn } := rfl

theorem exec_call (nnn : Addr12) (s : State) :
    exec (.call nnn) s = .next { s.advance.push s.advance.pc with pc := zextAddr nnn } := rfl

theorem exec_se (x : Nibble) (nn : Byte) (s : State) :
    exec (.se x nn) s = .next (s.advance.skipIf (s.getV x == nn)) := rfl

theorem exec_sne (x : Nibble) (nn : Byte) (s : State) :
    exec (.sne x nn) s = .next (s.advance.skipIf (s.getV x != nn)) := rfl

theorem exec_jpOff (nnn : Addr12) (s : State) :
    exec (.jpOff nnn) s = .next { s.advance with pc := zextAddr nnn + zextByte (s.jumpOffset nnn) } := rfl

/-! ### Frames -/

/-- The frame of a jump, wherever it goes. -/
theorem changesOnly_jump (s : State) (a : Word) : ChangesOnly [.pc] s { s.advance with pc := a } :=
  ⟨fun it h => by cases it <;> simp_all [Keeps], rfl, rfl, rfl, rfl⟩

/-- The frame of a call, whatever it pushes and wherever it goes. -/
theorem changesOnly_call (s : State) (ret a : Word) :
    ChangesOnly [.pc, .stack] s { s.advance.push ret with pc := a } :=
  ⟨fun it h => by cases it <;> simp_all [Keeps], rfl, rfl, rfl, rfl⟩

/-- A skip, taken or not, is a jump to one of the two instructions after it. -/
theorem changesOnly_skip (s : State) (c : Bool) : ChangesOnly [.pc] s (s.advance.skipIf c) :=
  changesOnly_jump s _

/-! ### Where control goes -/

/-- `PC` after a skip whose condition decides `p` (R100). -/
theorem State.skip_pc (s : State) {c : Bool} {p : Prop} [Decidable p] (h : c = true ↔ p) :
    (s.advance.skipIf c).pc = if p then s.pc + 4 else s.pc + 2 := by
  rw [State.skipIf_pc, State.advance_pc]
  exact if_congr h (add_instrBytes_twice s.pc) rfl

/-- The register the fields name under `JUMP_REG = VX`: bits 11:8 of `nnn` are its quotient by 256. -/
theorem State.jumpOffset_of_vx {s : State} {nnn : Addr12} {x : Nibble} (hq : s.cfg.jumpReg = .vx)
    (hx : x.toNat = nnn.toNat / 256) : s.jumpOffset nnn = s.getV x := by
  have hfield : nnn.extractLsb' 8 4 = x := by
    apply BitVec.eq_of_toNat_eq
    rw [BitVec.extractLsb'_toNat, Nat.shiftRight_eq_div_pow, ← hx, Nat.mod_eq_of_lt x.isLt]
  simp only [State.jumpOffset, hq, hfield]

theorem State.jumpOffset_of_v0 {s : State} (hq : s.cfg.jumpReg = .v0) (nnn : Addr12) :
    s.jumpOffset nnn = s.getV 0 := by
  simp only [State.jumpOffset, hq]

/-- An address and an offset never reach 2^16, so their sum does not wrap. -/
theorem zextAddr_add_zextByte_toNat (a : Addr12) (b : Byte) :
    (zextAddr a + zextByte b).toNat = a.toNat + b.toNat := by
  have ha := a.isLt
  have hb := b.isLt
  rw [BitVec.toNat_add, zextAddr_toNat, zextByte_toNat]
  omega

/-- Settles O22: the sum does not wrap, `JUMP_REG` selects the register, and a fetch from 4095 on fails. -/
theorem jumpWithOffsetAddsTheRegister : Obligations.JumpWithOffsetAddsTheRegister := by
  refine ⟨decodesAs_op (op := 0xB) (by decide) fun w => decodeWord_of_op11, fun s nnn => ?_⟩
  have hsum := zextAddr_add_zextByte_toNat nnn (s.jumpOffset nnn)
  refine ⟨_, exec_jpOff nnn s, fun hq x hx => ?_, fun hq => ?_, State.fetch_of_ge, rfl, changesOnly_jump s _⟩
  · rw [hsum, State.jumpOffset_of_vx hq hx]
  · rw [hsum, State.jumpOffset_of_v0 hq]

/-- Settles O19: the target is the zero-extended field, and from 4095 a fetch leaves memory at 4096. -/
theorem jumpAndCallGoToTheAddress : Obligations.JumpAndCallGoToTheAddress := by
  refine ⟨decodesAs_op (op := 1) (by decide) fun w => decodeWord_of_op1,
    decodesAs_op (op := 2) (by decide) fun w => decodeWord_of_op2, fun s nnn => ⟨?_, ?_⟩⟩
  · have htarget := zextAddr_toNat nnn
    refine ⟨_, exec_jp nnn s, htarget, rfl, changesOnly_jump s _, fun hlast => ?_⟩
    rw [State.fetch_of_ge (by rw [htarget, hlast]), htarget, hlast]
    rfl
  · exact ⟨_, exec_call nnn s, zextAddr_toNat nnn, rfl, rfl, changesOnly_call s _ _⟩

/-- Settles O20: both are skips, on equality and on its negation. -/
theorem immediateCompareSkips : Obligations.ImmediateCompareSkips := by
  refine ⟨decodesAs_op (op := 3) (by decide) fun w => decodeWord_of_op3,
    decodesAs_op (op := 4) (by decide) fun w => decodeWord_of_op4, fun s x nn => ⟨?_, ?_⟩⟩
  · exact ⟨_, exec_se x nn s, s.skip_pc beq_iff_eq, rfl, changesOnly_skip s _⟩
  · refine ⟨_, exec_sne x nn s, ?_, rfl, changesOnly_skip s _⟩
    rw [s.skip_pc bne_iff_ne, ite_not]

end Sys2Proof.Machine

/-! ## Register load, logic, immediate add and random (spec/42_alu.md R122 to R127, R133) -/

namespace Sys2Proof.Machine

open Sys2Proof

/-! ### What each meaning answers -/

theorem exec_ldImm (x : Nibble) (nn : Byte) (s : State) : exec (.ldImm x nn) s = .next (s.advance.setV x nn) := rfl

theorem exec_addImm (x : Nibble) (nn : Byte) (s : State) :
    exec (.addImm x nn) s = .next (s.advance.setV x (s.getV x + nn)) := rfl

theorem exec_ldReg (x y : Nibble) (s : State) :
    exec (.ldReg x y) s = .next (s.advance.setV x (s.getV y)) := rfl

theorem exec_orReg (x y : Nibble) (s : State) :
    exec (.orReg x y) s = .next (s.advance.setV x (s.getV x ||| s.getV y)) := rfl

theorem exec_andReg (x y : Nibble) (s : State) :
    exec (.andReg x y) s = .next (s.advance.setV x (s.getV x &&& s.getV y)) := rfl

theorem exec_xorReg (x y : Nibble) (s : State) :
    exec (.xorReg x y) s = .next (s.advance.setV x (s.getV x ^^^ s.getV y)) := rfl

theorem exec_rnd (x : Nibble) (nn : Byte) (s : State) :
    exec (.rnd x nn) s = .next (s.advance.setV x (s.rand &&& nn)) := rfl

/-! ### One register written -/

/-- The frame of a result, whichever register takes it and whatever it is. -/
theorem changesOnly_advance_setV (s : State) (x : Nibble) (b : Byte) :
    ChangesOnly [.v, .pc] s (s.advance.setV x b) :=
  ⟨fun it h => by cases it <;> simp_all [Keeps], rfl, rfl, rfl, rfl⟩

/-- What any reading `f` of a register (its number, one of its bits) gives once the result is written. -/
theorem State.apply_getV_advance_setV {α : Type} (f : Byte → α) (s : State) (x r : Nibble) (b : Byte) :
    f ((s.advance.setV x b).getV r) = if r = x then f b else f (s.getV r) := by
  rw [State.getV_setV, State.advance_getV, apply_ite f]

/-! ### The rows under `op = 8` -/

theorem decodeWord_of_op8_n0 {w : Word} (h : opOf w = 8#4) (hn : nOf w = 0#4) :
    decodeWord w = .ldReg (xOf w) (yOf w) := by
  simp [decodeWord_of_op8 h, decodeOp8, hn]

theorem decodeWord_of_op8_n1 {w : Word} (h : opOf w = 8#4) (hn : nOf w = 1#4) :
    decodeWord w = .orReg (xOf w) (yOf w) := by
  simp [decodeWord_of_op8 h, decodeOp8, hn]

theorem decodeWord_of_op8_n2 {w : Word} (h : opOf w = 8#4) (hn : nOf w = 2#4) :
    decodeWord w = .andReg (xOf w) (yOf w) := by
  simp [decodeWord_of_op8 h, decodeOp8, hn]

theorem decodeWord_of_op8_n3 {w : Word} (h : opOf w = 8#4) (hn : nOf w = 3#4) :
    decodeWord w = .xorReg (xOf w) (yOf w) := by
  simp [decodeWord_of_op8 h, decodeOp8, hn]

/-! ### Masked values -/

/-- A value has no bit outside `m` exactly when it is some value masked by `m`: itself, for one. -/
theorem and_not_eq_zero_iff_exists_and (b m : Byte) : b &&& ~~~m = 0 ↔ ∃ r, r &&& m = b := by
  constructor
  · intro h
    refine ⟨b, ?_⟩
    calc b &&& m = b &&& m ||| b &&& ~~~m := by rw [h, BitVec.ofNat_eq_ofNat, BitVec.or_zero]
      _ = b := by rw [← BitVec.and_or_distrib_left, BitVec.or_not_self, BitVec.and_allOnes]
  · rintro ⟨r, rfl⟩
    rw [BitVec.and_assoc, BitVec.and_not_self]
    exact BitVec.and_zero

/-- `RND`'s result is determined by the draw. -/
theorem exec_rnd_gives_iff (x : Nibble) (nn b : Byte) (s : State) :
    (∃ t, exec (.rnd x nn) s = .next t ∧ t.getV x = b) ↔ s.rand &&& nn = b := by
  simp [exec_rnd]

/-- Settles O28: the result is the masked draw, and the masked values are those without a bit outside the mask. -/
theorem randomIsTheMaskedDraw : Obligations.RandomIsTheMaskedDraw := by
  refine ⟨decodesAs_op (op := 0xC) (by decide) fun w => decodeWord_of_op12, fun s x nn => ⟨?_, fun b => ?_⟩⟩
  · exact ⟨_, exec_rnd x nn s, fun r => s.advance.getV_setV x r _, rfl, rfl, changesOnly_advance_setV s x _⟩
  · rw [and_not_eq_zero_iff_exists_and]
    exact exists_congr fun rand => (exec_rnd_gives_iff x nn b { s with rand := rand }).symm

/-- Settles O23: both write one register, the sum as a byte. -/
theorem immediateLoadAndAdd : Obligations.ImmediateLoadAndAdd := by
  refine ⟨decodesAs_op (op := 6) (by decide) fun w => decodeWord_of_op6,
    decodesAs_op (op := 7) (by decide) fun w => decodeWord_of_op7, fun s x nn => ⟨?_, ?_⟩⟩
  · exact ⟨_, exec_ldImm x nn s, fun r => s.advance.getV_setV x r _, rfl, rfl, changesOnly_advance_setV s x _⟩
  · refine ⟨_, exec_addImm x nn s, fun r => ?_, rfl, rfl, changesOnly_advance_setV s x _⟩
    rw [s.apply_getV_advance_setV BitVec.toNat, BitVec.toNat_add]

/-- Settles O24: each writes one register, and each operation acts on every bit by itself. -/
theorem moveAndLogicWriteOnlyTheDestination : Obligations.MoveAndLogicWriteOnlyTheDestination := by
  refine ⟨decodesAs_op_n (op := 8) (n := 0) (by decide) fun w => decodeWord_of_op8_n0,
    decodesAs_op_n (op := 8) (n := 1) (by decide) fun w => decodeWord_of_op8_n1,
    decodesAs_op_n (op := 8) (n := 2) (by decide) fun w => decodeWord_of_op8_n2,
    decodesAs_op_n (op := 8) (n := 3) (by decide) fun w => decodeWord_of_op8_n3, fun s x y => ⟨?_, ?_, ?_, ?_⟩⟩
  · exact ⟨_, exec_ldReg x y s, fun r => s.advance.getV_setV x r _, rfl, rfl, changesOnly_advance_setV s x _⟩
  · refine ⟨_, exec_orReg x y s, fun r k => ?_, rfl, rfl, changesOnly_advance_setV s x _⟩
    rw [s.apply_getV_advance_setV (BitVec.getLsbD · k), BitVec.getLsbD_or]
  · refine ⟨_, exec_andReg x y s, fun r k => ?_, rfl, rfl, changesOnly_advance_setV s x _⟩
    rw [s.apply_getV_advance_setV (BitVec.getLsbD · k), BitVec.getLsbD_and]
  · refine ⟨_, exec_xorReg x y s, fun r k => ?_, rfl, rfl, changesOnly_advance_setV s x _⟩
    rw [s.apply_getV_advance_setV (BitVec.getLsbD · k), BitVec.getLsbD_xor]

end Sys2Proof.Machine

/-! ## Address register (spec/43_address.md R140, R142) -/

namespace Sys2Proof.Machine

open Sys2Proof

/-! ### What each meaning answers -/

theorem exec_ldI (nnn : Addr12) (s : State) : exec (.ldI nnn) s = .next { s.advance with i := zextAddr nnn } := rfl

theorem exec_ldF (x : Nibble) (s : State) :
    exec (.ldF x) s = .next { s.advance with i := glyphAddr (s.getV x) } := rfl

/-! ### The address register written -/

/-- The frame of an index load, whatever is loaded. -/
theorem changesOnly_advance_setI (s : State) (a : Word) : ChangesOnly [.i, .pc] s { s.advance with i := a } :=
  ⟨fun it h => by cases it <;> simp_all [Keeps], rfl, rfl, rfl, rfl⟩

/-- The font starts at 0, and the product of a whole byte by 5 is at most 1275, so it does not wrap. -/
theorem glyphAddr_toNat (b : Byte) : (glyphAddr b).toNat = b.toNat * 5 := by
  have hb := b.isLt
  calc (glyphAddr b).toNat = b.toNat * 5 % 65536 := by
        simp [glyphAddr, Config.glyphBytes, zextByte_toNat]
    _ = b.toNat * 5 := Nat.mod_eq_of_lt (by omega)

/-! ### A row under `op = F` -/

theorem decodeWord_of_opF_nn29 {w : Word} (h : opOf w = 15#4) (hnn : nnOf w = 0x29#8) :
    decodeWord w = .ldF (xOf w) := by
  simp [decodeWord_of_op15 h, decodeOpF, hnn]

/-- Settles O29: both load `I` alone, with the zero-extended field and with the byte's glyph address. -/
theorem indexLoadsAddressAndGlyph : Obligations.IndexLoadsAddressAndGlyph := by
  refine ⟨decodesAs_op (op := 0xA) (by decide) fun w => decodeWord_of_op10,
    decodesAs_op_nn (op := 0xF) (nn := 0x29) (by decide) fun w => decodeWord_of_opF_nn29,
    fun s => ⟨fun nnn => ?_, fun x => ?_⟩⟩
  · exact ⟨_, exec_ldI nnn s, zextAddr_toNat nnn, rfl, rfl, changesOnly_advance_setI s _⟩
  · exact ⟨_, exec_ldF x s, glyphAddr_toNat (s.getV x), rfl, rfl, changesOnly_advance_setI s _⟩

end Sys2Proof.Machine

/-! ## Flipping a cell (spec/44_display.md R150) -/

namespace Sys2Proof.Machine

open Sys2Proof

/-- The flipped cell holds the value the flip answers. -/
theorem Framebuffer.cell_flipCell_self (fb : Framebuffer) (c r : Nat) :
    (fb.flipCell c r).1.cell c r = (fb.flipCell c r).2 :=
  (fb.cell_flipCell c r c r).trans (if_pos ⟨rfl, rfl⟩)

theorem Framebuffer.cell_flipCell_of_not_sameCell (fb : Framebuffer) {c r c' r' : Nat}
    (h : ¬SameCell (c', r') (c, r)) : (fb.flipCell c r).1.cell c' r' = fb.cell c' r' :=
  (fb.cell_flipCell c r c' r').trans (if_neg h)

/-- Settles O31: a cell inside the grid at other coordinates than the wrapped ones is not the same cell. -/
theorem flipTogglesOneWrappedCell : Obligations.FlipTogglesOneWrappedCell := by
  refine fun fb c r => ⟨rfl, fb.flipCell_snd c r, fb.cell_flipCell_self c r, fun c' r' hc hr hne => ?_⟩
  have hother : ¬SameCell (c', r') (c, r) := by
    rintro ⟨hcol, hrow⟩
    rw [Nat.mod_eq_of_lt hc] at hcol
    rw [Nat.mod_eq_of_lt hr] at hrow
    exact hne.elim (absurd hcol) (absurd hrow)
  exact fb.cell_flipCell_of_not_sameCell hother

end Sys2Proof.Machine

/-! ## Reading the delay timer (spec/45_keys_timers.md R164) -/

namespace Sys2Proof.Machine

open Sys2Proof

theorem exec_ldVxDt (x : Nibble) (s : State) : exec (.ldVxDt x) s = .next (s.advance.setV x s.dt) := rfl

theorem decodeWord_of_opF_nn07 {w : Word} (h : opOf w = 15#4) (hnn : nnOf w = 0x07#8) :
    decodeWord w = .ldVxDt (xOf w) := by
  simp [decodeWord_of_op15 h, decodeOpF, hnn]

/-- Settles O37: the read is one register write of `DT`, and `DT` is not among what a register write changes. -/
theorem delayTimerIsReadUnchanged : Obligations.DelayTimerIsReadUnchanged := by
  refine ⟨decodesAs_op_nn (op := 0xF) (nn := 0x07) (by decide) fun w => decodeWord_of_opF_nn07, fun s x => ?_⟩
  exact ⟨_, exec_ldVxDt x s, fun r => s.advance.getV_setV x r _, rfl, rfl, changesOnly_advance_setV s x _⟩

end Sys2Proof.Machine

/-! ## Unrecognised words (spec/47_unknown.md R190, spec/60_exceptions.md R204) -/

namespace Sys2Proof

/-- R67's table by its four rows, one for each `op` with a second level. -/
theorem unrecognised_iff (w : Word) : unrecognised w = true ↔
    (opOf w = 0#4 ∧ (nnOf w).toNat ∉ [0xE0, 0xEE]) ∨
    (opOf w = 8#4 ∧ (nOf w).toNat ∈ [0x8, 0x9, 0xA, 0xB, 0xC, 0xD, 0xF]) ∨
    (opOf w = 14#4 ∧ (nnOf w).toNat ∉ [0x9E, 0xA1]) ∨
    (opOf w = 15#4 ∧ (nnOf w).toNat ∉ [0x07, 0x0A, 0x15, 0x18, 0x1E, 0x29, 0x33, 0x55, 0x65]) := by
  simp only [unrecognised, Bool.or_eq_true, Bool.and_eq_true, beq_iff_eq, Bool.not_eq_true',
    ← Bool.not_eq_true, List.contains_iff_mem, or_assoc]

/-! ### The last branch of each second level (R64) -/

theorem decodeOp0_of_notMem {w : Word} (h : (nnOf w).toNat ∉ [0xE0, 0xEE]) : decodeOp0 w = .unknown w := by
  have hne : ∀ b : Byte, b.toNat ∈ [0xE0, 0xEE] → nnOf w ≠ b := fun b hb he => h (he ▸ hb)
  simp [decodeOp0, hne]

theorem decodeOp8_of_mem {w : Word} (h : (nOf w).toNat ∈ [0x8, 0x9, 0xA, 0xB, 0xC, 0xD, 0xF]) :
    decodeOp8 w = .unknown w := by
  have hne : ∀ b : Nibble, b.toNat ∉ [0x8, 0x9, 0xA, 0xB, 0xC, 0xD, 0xF] → nOf w ≠ b :=
    fun b hb he => hb (he ▸ h)
  simp [decodeOp8, hne]

theorem decodeOpE_of_notMem {w : Word} (h : (nnOf w).toNat ∉ [0x9E, 0xA1]) : decodeOpE w = .unknown w := by
  have hne : ∀ b : Byte, b.toNat ∈ [0x9E, 0xA1] → nnOf w ≠ b := fun b hb he => h (he ▸ hb)
  simp [decodeOpE, hne]

theorem decodeOpF_of_notMem {w : Word}
    (h : (nnOf w).toNat ∉ [0x07, 0x0A, 0x15, 0x18, 0x1E, 0x29, 0x33, 0x55, 0x65]) :
    decodeOpF w = .unknown w := by
  have hne : ∀ b : Byte, b.toNat ∈ [0x07, 0x0A, 0x15, 0x18, 0x1E, 0x29, 0x33, 0x55, 0x65] → nnOf w ≠ b :=
    fun b hb he => h (he ▸ hb)
  simp [decodeOpF, hne]

/-- A word of R67's table decodes to itself: its row names the second level, which has no case for it. -/
theorem decodeWord_of_unrecognised {w : Word} (h : unrecognised w = true) : decodeWord w = .unknown w := by
  obtain ⟨hop, hnn⟩ | ⟨hop, hn⟩ | ⟨hop, hnn⟩ | ⟨hop, hnn⟩ := (unrecognised_iff w).1 h
  · rw [decodeWord_of_op0 hop, decodeOp0_of_notMem hnn]
  · rw [decodeWord_of_op8 hop, decodeOp8_of_mem hn]
  · rw [decodeWord_of_op14 hop, decodeOpE_of_notMem hnn]
  · rw [decodeWord_of_op15 hop, decodeOpF_of_notMem hnn]

end Sys2Proof

namespace Sys2Proof.Machine

open Sys2Proof

theorem exec_unknown (w : Word) (s : State) :
    exec (.unknown w) s = .next { s.advance with out := ⟨false, some ⟨w, s.pc⟩, none⟩ } := rfl

/-- What a step reports is free in every frame. -/
theorem ChangesOnly.setOut {may : List Item} {s t : State} (h : ChangesOnly may s t) (o : StepResult) :
    ChangesOnly may s { t with out := o } := by
  obtain ⟨hitems, hrest⟩ := h
  refine ⟨fun it hit => ?_, hrest⟩
  have hkeeps := hitems it hit
  cases it <;> exact hkeeps

/-- The frame of an advance: a jump to the next instruction. -/
theorem changesOnly_advance (s : State) : ChangesOnly [.pc] s s.advance :=
  changesOnly_jump s s.advance.pc

/-- Settles O47: each row of R67's table is the last branch of a second level, and the meaning is an advance
with a report. -/
theorem unknownWordIsAReportedNoOp : Obligations.UnknownWordIsAReportedNoOp := by
  refine ⟨fun w => decodeWord_of_unrecognised, fun s w => ?_⟩
  exact ⟨_, exec_unknown w s, s.advance_pc, rfl, (changesOnly_advance s).setOut _⟩

end Sys2Proof.Machine

/-! ## The rows of the second levels (spec/30_encoding.md R64, R65) -/

namespace Sys2Proof

open Machine

theorem decodeWord_of_op0_nnE0 {w : Word} (h : opOf w = 0#4) (hnn : nnOf w = 0xE0#8) : decodeWord w = .cls := by
  simp [decodeWord_of_op0 h, decodeOp0, hnn]

theorem decodeWord_of_op0_nnEE {w : Word} (h : opOf w = 0#4) (hnn : nnOf w = 0xEE#8) : decodeWord w = .ret := by
  simp [decodeWord_of_op0 h, decodeOp0, hnn]

theorem decodeWord_of_op8_n4 {w : Word} (h : opOf w = 8#4) (hn : nOf w = 4#4) :
    decodeWord w = .addReg (xOf w) (yOf w) := by
  simp [decodeWord_of_op8 h, decodeOp8, hn]

theorem decodeWord_of_op8_n5 {w : Word} (h : opOf w = 8#4) (hn : nOf w = 5#4) :
    decodeWord w = .sub (xOf w) (yOf w) := by
  simp [decodeWord_of_op8 h, decodeOp8, hn]

theorem decodeWord_of_op8_n6 {w : Word} (h : opOf w = 8#4) (hn : nOf w = 6#4) :
    decodeWord w = .shr (xOf w) (yOf w) := by
  simp [decodeWord_of_op8 h, decodeOp8, hn]

theorem decodeWord_of_op8_n7 {w : Word} (h : opOf w = 8#4) (hn : nOf w = 7#4) :
    decodeWord w = .subn (xOf w) (yOf w) := by
  simp [decodeWord_of_op8 h, decodeOp8, hn]

theorem decodeWord_of_op8_nE {w : Word} (h : opOf w = 8#4) (hn : nOf w = 0xE#4) :
    decodeWord w = .shl (xOf w) (yOf w) := by
  simp [decodeWord_of_op8 h, decodeOp8, hn]

theorem decodeWord_of_opE_nn9E {w : Word} (h : opOf w = 14#4) (hnn : nnOf w = 0x9E#8) :
    decodeWord w = .skp (xOf w) := by
  simp [decodeWord_of_op14 h, decodeOpE, hnn]

theorem decodeWord_of_opE_nnA1 {w : Word} (h : opOf w = 14#4) (hnn : nnOf w = 0xA1#8) :
    decodeWord w = .sknp (xOf w) := by
  simp [decodeWord_of_op14 h, decodeOpE, hnn]

theorem decodeWord_of_opF_nn0A {w : Word} (h : opOf w = 15#4) (hnn : nnOf w = 0x0A#8) :
    decodeWord w = .ldVxK (xOf w) := by
  simp [decodeWord_of_op15 h, decodeOpF, hnn]

theorem decodeWord_of_opF_nn15 {w : Word} (h : opOf w = 15#4) (hnn : nnOf w = 0x15#8) :
    decodeWord w = .ldDt (xOf w) := by
  simp [decodeWord_of_op15 h, decodeOpF, hnn]

theorem decodeWord_of_opF_nn18 {w : Word} (h : opOf w = 15#4) (hnn : nnOf w = 0x18#8) :
    decodeWord w = .ldSt (xOf w) := by
  simp [decodeWord_of_op15 h, decodeOpF, hnn]

theorem decodeWord_of_opF_nn1E {w : Word} (h : opOf w = 15#4) (hnn : nnOf w = 0x1E#8) :
    decodeWord w = .addI (xOf w) := by
  simp [decodeWord_of_op15 h, decodeOpF, hnn]

theorem decodeWord_of_opF_nn33 {w : Word} (h : opOf w = 15#4) (hnn : nnOf w = 0x33#8) :
    decodeWord w = .ldB (xOf w) := by
  simp [decodeWord_of_op15 h, decodeOpF, hnn]

theorem decodeWord_of_opF_nn55 {w : Word} (h : opOf w = 15#4) (hnn : nnOf w = 0x55#8) :
    decodeWord w = .stRegs (xOf w) := by
  simp [decodeWord_of_op15 h, decodeOpF, hnn]

theorem decodeWord_of_opF_nn65 {w : Word} (h : opOf w = 15#4) (hnn : nnOf w = 0x65#8) :
    decodeWord w = .ldRegs (xOf w) := by
  simp [decodeWord_of_op15 h, decodeOpF, hnn]

/-! ### Decoding what was encoded -/

/-- The word of a well-formed instruction has the row's key in its examined fields and the operands in theirs. -/
theorem decodeWord_encode {i : Instr} (h : i.wf = true) : decodeWord (encode i) = i := by
  cases i with
  | cls => simp [encode, decodeWord_of_op0_nnE0]
  | ret => simp [encode, decodeWord_of_op0_nnEE]
  | jp nnn => simp [encode, decodeWord_of_op1]
  | call nnn => simp [encode, decodeWord_of_op2]
  | se x nn => simp [encode, decodeWord_of_op3]
  | sne x nn => simp [encode, decodeWord_of_op4]
  | seReg x y => simp [encode, decodeWord_of_op5]
  | ldImm x nn => simp [encode, decodeWord_of_op6]
  | addImm x nn => simp [encode, decodeWord_of_op7]
  | ldReg x y => simp [encode, decodeWord_of_op8_n0]
  | orReg x y => simp [encode, decodeWord_of_op8_n1]
  | andReg x y => simp [encode, decodeWord_of_op8_n2]
  | xorReg x y => simp [encode, decodeWord_of_op8_n3]
  | addReg x y => simp [encode, decodeWord_of_op8_n4]
  | sub x y => simp [encode, decodeWord_of_op8_n5]
  | shr x y => simp [encode, decodeWord_of_op8_n6]
  | subn x y => simp [encode, decodeWord_of_op8_n7]
  | shl x y => simp [encode, decodeWord_of_op8_nE]
  | sneReg x y => simp [encode, decodeWord_of_op9]
  | ldI nnn => simp [encode, decodeWord_of_op10]
  | jpOff nnn => simp [encode, decodeWord_of_op11]
  | rnd x nn => simp [encode, decodeWord_of_op12]
  | drw x y n => simp [encode, decodeWord_of_op13]
  | skp x => simp [encode, decodeWord_of_opE_nn9E]
  | sknp x => simp [encode, decodeWord_of_opE_nnA1]
  | ldVxDt x => simp [encode, decodeWord_of_opF_nn07]
  | ldVxK x => simp [encode, decodeWord_of_opF_nn0A]
  | ldDt x => simp [encode, decodeWord_of_opF_nn15]
  | ldSt x => simp [encode, decodeWord_of_opF_nn18]
  | addI x => simp [encode, decodeWord_of_opF_nn1E]
  | ldF x => simp [encode, decodeWord_of_opF_nn29]
  | ldB x => simp [encode, decodeWord_of_opF_nn33]
  | stRegs x => simp [encode, decodeWord_of_opF_nn55]
  | ldRegs x => simp [encode, decodeWord_of_opF_nn65]
  | unknown w => exact decodeWord_of_unrecognised h

/-- The bytes of an instruction, whatever follows them, decode as its word does. -/
theorem decode_encodeBytes_append (i : Instr) (rest : List Byte) :
    decode (encodeBytes i ++ rest) = .ok (decodeWord (encode i), rest) := by
  calc decode (encodeBytes i ++ rest)
      = .ok (decodeWord (wordOfBytes (hiByte (encode i)) (loByte (encode i))), rest) := rfl
    _ = .ok (decodeWord (encode i), rest) := by rw [wordOfBytes_hi_lo]

/-- Settles O1: every constructor's word decodes to it, and a word is rebuilt from its two bytes. -/
theorem decodeEncodeRoundTrip : Obligations.DecodeEncodeRoundTrip := fun i hwf =>
  ⟨decodeWord_encode hwf, fun rest => by rw [decode_encodeBytes_append, decodeWord_encode hwf]⟩

end Sys2Proof

/-! ## What each meaning answers, for the instructions not treated above -/

namespace Sys2Proof.Machine

open Sys2Proof

theorem exec_cls (s : State) : exec .cls s = .next { s.advance with fb := .clear }.markDirty := rfl

theorem exec_seReg (x y : Nibble) (s : State) :
    exec (.seReg x y) s = .next (s.advance.skipIf (s.getV x == s.getV y)) := rfl

theorem exec_sneReg (x y : Nibble) (s : State) :
    exec (.sneReg x y) s = .next (s.advance.skipIf (s.getV x != s.getV y)) := rfl

theorem exec_addReg (x y : Nibble) (s : State) : exec (.addReg x y) s =
    .next ((s.advance.setV x (s.getV x + s.getV y)).setFlag (carryOut (s.getV x) (s.getV y))) := rfl

theorem exec_sub (x y : Nibble) (s : State) : exec (.sub x y) s =
    .next ((s.advance.setV x (s.getV x - s.getV y)).setFlag (noBorrow (s.getV x) (s.getV y))) := rfl

theorem exec_subn (x y : Nibble) (s : State) : exec (.subn x y) s =
    .next ((s.advance.setV x (s.getV y - s.getV x)).setFlag (noBorrow (s.getV y) (s.getV x))) := rfl

theorem exec_shr (x y : Nibble) (s : State) : exec (.shr x y) s =
    .next ((s.advance.setV x (s.shiftSource x y >>> 1)).setFlag (lowBit (s.shiftSource x y))) := rfl

theorem exec_shl (x y : Nibble) (s : State) : exec (.shl x y) s =
    .next ((s.advance.setV x (s.shiftSource x y <<< 1)).setFlag (highBit (s.shiftSource x y))) := rfl

theorem exec_addI (x : Nibble) (s : State) :
    exec (.addI x) s = .next { s.advance with i := s.i + zextByte (s.getV x) } := rfl

theorem exec_skp (x : Nibble) (s : State) :
    exec (.skp x) s = .next (s.advance.skipIf (s.keyHeld (s.getV x))) := rfl

theorem exec_sknp (x : Nibble) (s : State) :
    exec (.sknp x) s = .next (s.advance.skipIf (!s.keyHeld (s.getV x))) := rfl

theorem exec_ldVxK (x : Nibble) (s : State) :
    exec (.ldVxK x) s = .next { s.advance with blocked := some x } := rfl

theorem exec_ldDt (x : Nibble) (s : State) : exec (.ldDt x) s = .next { s.advance with dt := s.getV x } := rfl

theorem exec_ldSt (x : Nibble) (s : State) : exec (.ldSt x) s = .next { s.advance with st := s.getV x } := rfl

/-! ### The five instructions that can raise: what their two outcomes are -/

theorem exec_ret_cases {s t : State} (h : exec .ret s = .next t) :
    (s.stack = [] ∧ t = s.raiseStackUnderflow) ∨
      ∃ a rest, s.stack = a :: rest ∧ t = { s.advance with stack := rest, pc := a } := by
  rcases hs : s.stack with _ | ⟨a, rest⟩
  · rw [exec_ret_of_nil hs] at h
    cases h
    exact .inl ⟨rfl, rfl⟩
  · rw [exec_ret_of_cons hs] at h
    cases h
    exact .inr ⟨a, rest, rfl, rfl⟩

theorem exec_drw_cases {x y n : Nibble} {s t : State} (h : exec (.drw x y n) s = .next t) :
    (n ≠ 0 ∧ 4096 < s.base + n.toNat ∧ t = s.raiseOutOfBounds (max s.base 4096)) ∨
      ((n = 0 ∨ s.base + n.toNat ≤ 4096) ∧
        ∃ fb f, t = ({ s.advance with fb := fb }.setFlag f).markDirty) := by
  by_cases hin : n = 0 ∨ s.base + n.toNat ≤ 4096
  · rw [exec_drw_of_inside hin] at h
    cases h
    exact .inr ⟨hin, _, _, rfl⟩
  · obtain ⟨hn, hout⟩ := not_or.1 hin
    rw [exec_drw_of_outside hn (Nat.lt_of_not_le hout)] at h
    cases h
    exact .inl ⟨hn, Nat.lt_of_not_le hout, rfl⟩

theorem exec_ldB_cases {x : Nibble} {s t : State} (h : exec (.ldB x) s = .next t) :
    (4096 < s.base + 3 ∧ t = s.raiseOutOfBounds (max s.base 4096)) ∨
      (s.base + 3 ≤ 4096 ∧ t = { s.advance with mem := s.mem.store s.base (digits (s.getV x)) }) := by
  rcases Nat.lt_or_ge 4096 (s.base + 3) with hout | hin
  · rw [exec_ldB_of_outside hout] at h
    cases h
    exact .inl ⟨hout, rfl⟩
  · rw [exec_ldB_of_inside hin] at h
    cases h
    exact .inr ⟨hin, rfl⟩

theorem exec_stRegs_cases {x : Nibble} {s t : State} (h : exec (.stRegs x) s = .next t) :
    (4096 < s.base + (x.toNat + 1) ∧ t = s.raiseOutOfBounds (max s.base 4096)) ∨
      (s.base + (x.toNat + 1) ≤ 4096 ∧
        t = { s.advance with mem := s.mem.store s.base (s.regBytes x), i := s.indexAfter x }) := by
  rcases Nat.lt_or_ge 4096 (s.base + (x.toNat + 1)) with hout | hin
  · rw [exec_stRegs_of_outside hout] at h
    cases h
    exact .inl ⟨hout, rfl⟩
  · rw [exec_stRegs_of_inside hin] at h
    cases h
    exact .inr ⟨hin, rfl⟩

theorem exec_ldRegs_cases {x : Nibble} {s t : State} (h : exec (.ldRegs x) s = .next t) :
    (4096 < s.base + (x.toNat + 1) ∧ t = s.raiseOutOfBounds (max s.base 4096)) ∨
      (s.base + (x.toNat + 1) ≤ 4096 ∧ t = { s.advance with v := s.loadedRegs x, i := s.indexAfter x }) := by
  rcases Nat.lt_or_ge 4096 (s.base + (x.toNat + 1)) with hout | hin
  · rw [exec_ldRegs_of_outside hout] at h
    cases h
    exact .inl ⟨hout, rfl⟩
  · rw [exec_ldRegs_of_inside hin] at h
    cases h
    exact .inr ⟨hin, rfl⟩

end Sys2Proof.Machine

/-! ## Frames: what an instruction may change (spec/10_state.md R10) -/

namespace Sys2Proof.Machine

open Sys2Proof

/-! ### Frames of the single updates -/

theorem ChangesOnly.mono {may may' : List Item} {s t : State} (h : ChangesOnly may s t) (hsub : may ⊆ may') :
    ChangesOnly may' s t := by
  obtain ⟨hitems, hrest⟩ := h
  exact ⟨fun it hit => hitems it fun hmem => hit (hsub hmem), hrest⟩

/-- The frame of a result with its flag, whatever they are. -/
theorem changesOnly_advance_setV_setFlag (s : State) (x : Nibble) (b : Byte) (f : Bool) :
    ChangesOnly [.v, .pc] s ((s.advance.setV x b).setFlag f) :=
  ⟨fun it h => by cases it <;> simp_all [Keeps], rfl, rfl, rfl, rfl⟩

theorem changesOnly_advance_setFb (s : State) (fb : Framebuffer) :
    ChangesOnly [.fb, .pc] s { s.advance with fb := fb }.markDirty :=
  ⟨fun it h => by cases it <;> simp_all [Keeps], rfl, rfl, rfl, rfl⟩

theorem changesOnly_drawn (s : State) (fb : Framebuffer) (f : Bool) :
    ChangesOnly [.fb, .v, .pc] s ({ s.advance with fb := fb }.setFlag f).markDirty :=
  ⟨fun it h => by cases it <;> simp_all [Keeps], rfl, rfl, rfl, rfl⟩

theorem changesOnly_return (s : State) (rest : List Word) (a : Word) :
    ChangesOnly [.pc, .stack] s { s.advance with stack := rest, pc := a } :=
  ⟨fun it h => by cases it <;> simp_all [Keeps], rfl, rfl, rfl, rfl⟩

theorem changesOnly_advance_setBlocked (s : State) (b : Option Nibble) :
    ChangesOnly [.blocked, .pc] s { s.advance with blocked := b } :=
  ⟨fun it h => by cases it <;> simp_all [Keeps], rfl, rfl, rfl, rfl⟩

theorem changesOnly_advance_setDt (s : State) (b : Byte) : ChangesOnly [.dt, .pc] s { s.advance with dt := b } :=
  ⟨fun it h => by cases it <;> simp_all [Keeps], rfl, rfl, rfl, rfl⟩

theorem changesOnly_advance_setSt (s : State) (b : Byte) : ChangesOnly [.st, .pc] s { s.advance with st := b } :=
  ⟨fun it h => by cases it <;> simp_all [Keeps], rfl, rfl, rfl, rfl⟩

theorem changesOnly_advance_setMem (s : State) (m : Memory) :
    ChangesOnly [.mem, .pc] s { s.advance with mem := m } :=
  ⟨fun it h => by cases it <;> simp_all [Keeps], rfl, rfl, rfl, rfl⟩

/-- The frame of a block store. -/
theorem changesOnly_advance_setMem_setI (s : State) (m : Memory) (a : Word) :
    ChangesOnly [.mem, .i, .pc] s { s.advance with mem := m, i := a } :=
  ⟨fun it h => by cases it <;> simp_all [Keeps], rfl, rfl, rfl, rfl⟩

/-- The frame of a block load. -/
theorem changesOnly_advance_setRegs_setI (s : State) (v : Vector Byte 16) (a : Word) :
    ChangesOnly [.v, .i, .pc] s { s.advance with v := v, i := a } :=
  ⟨fun it h => by cases it <;> simp_all [Keeps], rfl, rfl, rfl, rfl⟩

/-- An item the frame lists stays out of it if it is kept after all. -/
theorem ChangesOnly.drop {it : Item} {may : List Item} {s t : State} (h : ChangesOnly (it :: may) s t)
    (hkeeps : Keeps it s t) : ChangesOnly may s t := by
  obtain ⟨hitems, hrest⟩ := h
  refine ⟨fun it' hit => ?_, hrest⟩
  by_cases he : it' = it
  · rwa [he]
  · exact hitems it' (by simp [he, hit])

theorem State.indexAfter_of_not_inc {s : State} (h : s.cfg.loadStoreInc = false) (x : Nibble) :
    s.indexAfter x = s.i := by
  simp [State.indexAfter, h]

/-! ### The frame of every instruction -/

/-- The items an instruction may change, `FAULT` where it can raise; `inc` is `LOADSTORE_INC`. -/
def mayChange (inc : Bool) : Instr → List Item
  | .cls => [.fb, .pc]
  | .ret => [.pc, .stack, .fault]
  | .call _ => [.pc, .stack]
  | .jp _ | .jpOff _ | .unknown _ => [.pc]
  | .se _ _ | .sne _ _ | .seReg _ _ | .sneReg _ _ | .skp _ | .sknp _ => [.pc]
  | .ldImm _ _ | .addImm _ _ | .rnd _ _ | .ldVxDt _ => [.v, .pc]
  | .ldReg _ _ | .orReg _ _ | .andReg _ _ | .xorReg _ _ => [.v, .pc]
  | .addReg _ _ | .sub _ _ | .shr _ _ | .subn _ _ | .shl _ _ => [.v, .pc]
  | .ldI _ | .addI _ | .ldF _ => [.i, .pc]
  | .drw _ _ _ => [.fb, .v, .pc, .fault]
  | .ldVxK _ => [.blocked, .pc]
  | .ldDt _ => [.dt, .pc]
  | .ldSt _ => [.st, .pc]
  | .ldB _ => [.mem, .pc, .fault]
  | .stRegs _ => [.mem, .pc, .fault] ++ if inc then [.i] else []
  | .ldRegs _ => [.v, .pc, .fault] ++ if inc then [.i] else []

theorem exec_stRegs_changesOnly {x : Nibble} {s t : State} (h : exec (.stRegs x) s = .next t) :
    ChangesOnly (mayChange s.cfg.loadStoreInc (.stRegs x)) s t := by
  obtain ⟨-, rfl⟩ | ⟨-, rfl⟩ := exec_stRegs_cases h
  · exact (changesOnly_takeFatal s _ _).mono (by simp [mayChange])
  · have hframe := changesOnly_advance_setMem_setI s (s.mem.store s.base (s.regBytes x)) (s.indexAfter x)
    cases hinc : s.cfg.loadStoreInc with
    | true => exact hframe.mono (by simp [mayChange])
    | false =>
      have hi : ChangesOnly [.i, .mem, .pc] s _ := hframe.mono (by simp)
      exact (hi.drop (State.indexAfter_of_not_inc hinc x)).mono (by simp [mayChange])

theorem exec_ldRegs_changesOnly {x : Nibble} {s t : State} (h : exec (.ldRegs x) s = .next t) :
    ChangesOnly (mayChange s.cfg.loadStoreInc (.ldRegs x)) s t := by
  obtain ⟨-, rfl⟩ | ⟨-, rfl⟩ := exec_ldRegs_cases h
  · exact (changesOnly_takeFatal s _ _).mono (by simp [mayChange])
  · have hframe := changesOnly_advance_setRegs_setI s (s.loadedRegs x) (s.indexAfter x)
    cases hinc : s.cfg.loadStoreInc with
    | true => exact hframe.mono (by simp [mayChange])
    | false =>
      have hi : ChangesOnly [.i, .v, .pc] s _ := hframe.mono (by simp)
      exact (hi.drop (State.indexAfter_of_not_inc hinc x)).mono (by simp [mayChange])

theorem exec_changesOnly {i : Instr} {s t : State} (h : exec i s = .next t) :
    ChangesOnly (mayChange s.cfg.loadStoreInc i) s t := by
  cases i with
  | ret =>
    obtain ⟨-, rfl⟩ | ⟨a, rest, -, rfl⟩ := exec_ret_cases h
    · exact (changesOnly_takeFatal s _ _).mono (by simp [mayChange])
    · exact (changesOnly_return s rest a).mono (by simp [mayChange])
  | drw x y n =>
    obtain ⟨-, -, rfl⟩ | ⟨-, fb, f, rfl⟩ := exec_drw_cases h
    · exact (changesOnly_takeFatal s _ _).mono (by simp [mayChange])
    · exact (changesOnly_drawn s fb f).mono (by simp [mayChange])
  | ldB x =>
    obtain ⟨-, rfl⟩ | ⟨-, rfl⟩ := exec_ldB_cases h
    · exact (changesOnly_takeFatal s _ _).mono (by simp [mayChange])
    · exact (changesOnly_advance_setMem s _).mono (by simp [mayChange])
  | stRegs x => exact exec_stRegs_changesOnly h
  | ldRegs x => exact exec_ldRegs_changesOnly h
  | cls => cases h; exact changesOnly_advance_setFb s _
  | call nnn => cases h; exact changesOnly_call s _ _
  | jp _ | jpOff _ => cases h; exact changesOnly_jump s _
  | unknown w => cases h; exact (changesOnly_advance s).setOut _
  | se _ _ | sne _ _ | seReg _ _ | sneReg _ _ | skp _ | sknp _ => cases h; exact changesOnly_skip s _
  | ldImm x _ | addImm x _ | rnd x _ | ldVxDt x => cases h; exact changesOnly_advance_setV s x _
  | ldReg x _ | orReg x _ | andReg x _ | xorReg x _ => cases h; exact changesOnly_advance_setV s x _
  | addReg x _ | sub x _ | shr x _ | subn x _ | shl x _ => cases h; exact changesOnly_advance_setV_setFlag s x _ _
  | ldI _ | addI _ | ldF _ => cases h; exact changesOnly_advance_setI s _
  | ldVxK x => cases h; exact changesOnly_advance_setBlocked s _
  | ldDt x => cases h; exact changesOnly_advance_setDt s _
  | ldSt x => cases h; exact changesOnly_advance_setSt s _

/-- The contrapositive: a changed item is one the instruction may change. -/
theorem mem_mayChange_of_not_keeps {i : Instr} {s t : State} (h : exec i s = .next t) {it : Item}
    (hit : ¬Keeps it s t) : it ∈ mayChange s.cfg.loadStoreInc i := by
  by_contra hnot
  exact hit ((exec_changesOnly h).1 it hnot)

/-! ### Which instructions may change an item -/

theorem mem_mayChange_mem {inc : Bool} {i : Instr} (h : .mem ∈ mayChange inc i) :
    ∃ x, i = .ldB x ∨ i = .stRegs x := by
  cases i <;> cases inc <;> simp [mayChange] at h ⊢

theorem mem_mayChange_i {inc : Bool} {i : Instr} (h : .i ∈ mayChange inc i) :
    (∃ nnn, i = .ldI nnn) ∨ (∃ x, i = .addI x ∨ i = .ldF x) ∨
      (inc = true ∧ ∃ x, i = .stRegs x ∨ i = .ldRegs x) := by
  cases i <;> cases inc <;> simp [mayChange] at h ⊢

theorem mem_mayChange_stack {inc : Bool} {i : Instr} (h : .stack ∈ mayChange inc i) :
    i = .ret ∨ ∃ nnn, i = .call nnn := by
  cases i <;> cases inc <;> simp [mayChange] at h ⊢

theorem mem_mayChange_fault {inc : Bool} {i : Instr} (h : .fault ∈ mayChange inc i) :
    i = .ret ∨ (∃ x y n, i = .drw x y n) ∨ ∃ x, i = .ldB x ∨ i = .stRegs x ∨ i = .ldRegs x := by
  cases i <;> cases inc <;> simp [mayChange] at h ⊢

theorem acc_notMem_mayChange (inc : Bool) (i : Instr) : Item.acc ∉ mayChange inc i := by
  cases i <;> cases inc <;> simp [mayChange]

theorem keys_notMem_mayChange (inc : Bool) (i : Instr) : Item.keys ∉ mayChange inc i := by
  cases i <;> cases inc <;> simp [mayChange]

theorem mem_mayChange_dt {inc : Bool} {i : Instr} (h : .dt ∈ mayChange inc i) : ∃ x, i = .ldDt x := by
  cases i <;> cases inc <;> simp [mayChange] at h ⊢

theorem mem_mayChange_st {inc : Bool} {i : Instr} (h : .st ∈ mayChange inc i) : ∃ x, i = .ldSt x := by
  cases i <;> cases inc <;> simp [mayChange] at h ⊢

theorem mem_mayChange_fb {inc : Bool} {i : Instr} (h : .fb ∈ mayChange inc i) :
    i = .cls ∨ ∃ x y n, i = .drw x y n := by
  cases i <;> cases inc <;> simp [mayChange] at h ⊢

theorem mem_mayChange_blocked {inc : Bool} {i : Instr} (h : .blocked ∈ mayChange inc i) :
    ∃ x, i = .ldVxK x := by
  cases i <;> cases inc <;> simp [mayChange] at h ⊢

/-- Settles O12: a changed item is in the frame of its instruction, and each item is in the frames of its column. -/
theorem itemsAreWrittenOnlyAsTabled : Obligations.ItemsAreWrittenOnlyAsTabled := by
  intro i s t h
  obtain ⟨hitems, hhost⟩ := exec_changesOnly h
  have hmay : ∀ it, ¬Keeps it s t → it ∈ mayChange s.cfg.loadStoreInc i :=
    fun it => mem_mayChange_of_not_keeps h
  exact ⟨fun hc => mem_mayChange_mem (hmay _ hc), fun hc => mem_mayChange_i (hmay _ hc),
    fun hc => mem_mayChange_stack (hmay _ hc), fun hc => mem_mayChange_dt (hmay _ hc),
    fun hc => mem_mayChange_st (hmay _ hc), fun hc => mem_mayChange_fb (hmay _ hc),
    fun hc => mem_mayChange_blocked (hmay _ hc), fun hc => mem_mayChange_fault (hmay _ hc),
    hitems .acc (acc_notMem_mayChange _ i), hitems .keys (keys_notMem_mayChange _ i), hhost⟩

end Sys2Proof.Machine

/-! ## Invariants of every step (spec/10_state.md R15, R21; spec/20_memory.md R40) -/

namespace Sys2Proof.Machine

open Sys2Proof

/-! ### Memory -/

/-- Execution leaves the memory list as it is or stores bytes from `I` on, all of them inside memory. -/
theorem exec_mem_cases {i : Instr} {s t : State} (h : exec i s = .next t) :
    t.mem = s.mem ∨ ∃ bs, s.base + bs.length ≤ 4096 ∧ t.mem = s.mem.store s.base bs := by
  cases i with
  | ret => obtain ⟨-, rfl⟩ | ⟨a, rest, -, rfl⟩ := exec_ret_cases h <;> exact .inl rfl
  | drw x y n => obtain ⟨-, -, rfl⟩ | ⟨-, fb, f, rfl⟩ := exec_drw_cases h <;> exact .inl rfl
  | ldRegs x => obtain ⟨-, rfl⟩ | ⟨-, rfl⟩ := exec_ldRegs_cases h <;> exact .inl rfl
  | ldB x =>
    obtain ⟨-, rfl⟩ | ⟨hin, rfl⟩ := exec_ldB_cases h
    · exact .inl rfl
    · exact .inr ⟨digits (s.getV x), hin, rfl⟩
  | stRegs x =>
    obtain ⟨-, rfl⟩ | ⟨hin, rfl⟩ := exec_stRegs_cases h
    · exact .inl rfl
    · exact .inr ⟨s.regBytes x, by rwa [State.length_regBytes], rfl⟩
  | _ =>
    cases h
    exact .inl rfl

theorem exec_memInv {i : Instr} {s t : State} (h : exec i s = .next t) (hs : s.MemInv) : t.MemInv := by
  unfold State.MemInv at hs ⊢
  obtain hsame | ⟨bs, hin, hstore⟩ := exec_mem_cases h
  · rwa [hsame]
  · rw [hstore]
    exact Memory.wf_store hs hin

/-- The image of a reset that is not refused is stored inside memory. -/
theorem loadImage_wf {font program : List Byte} {offset : Word} (hfont : font.length = 80)
    (hprogram : offset.toNat + program.length ≤ 4096) : (loadImage font program offset).wf = true := by
  have hfontIn : (Memory.store [] Config.fontBase font).wf = true :=
    Memory.wf_store State.reset_mem_wf (by rw [hfont]; decide)
  exact Memory.wf_store hfontIn hprogram

/-- Settles O52: every store of execution and of a reset lies inside memory, and such stores keep the form. -/
theorem stepKeepsMemoryCanonical : Obligations.StepKeepsMemoryCanonical := by
  intro s t hs hstep
  refine step_preserves (P := State.MemInv) hstep ?same ?exec ?tick ?reset hs
  case same =>
    intro s s' hmem _ _ _ _ hs
    rwa [State.MemInv, hmem]
  case exec => exact fun i s t hexec _ => exec_memInv hexec
  case tick =>
    intro s e hs
    rwa [State.MemInv, State.tick_mem]
  case reset =>
    intro s t font program offset cfg hreset
    obtain ⟨hfont, hprogram, -, rfl⟩ := State.resetWith_eq_next hreset
    exact loadImage_wf hfont hprogram

/-! ### The accumulator -/

/-- A tick of a running block, its accumulator as a remainder. -/
theorem State.tick_eq {s : State} (h : s.fault = .none) (e : Nat) :
    s.tick e = { s with
      dt := countDown s.dt ((s.acc + e) / s.cfg.tickInterval)
      st := countDown s.st ((s.acc + e) / s.cfg.tickInterval)
      acc := (s.acc + e) % s.cfg.tickInterval } := by
  rw [State.tick_of_running h, Nat.mod_def, Nat.mul_comm]

theorem State.tick_timeInv {s : State} (e : Nat) (hs : s.TimeInv) : (s.tick e).TimeInv := by
  by_cases hf : s.fault = .none
  · rw [State.TimeInv, State.tick_eq hf]
    exact Nat.mod_lt _ (Nat.lt_of_le_of_lt (Nat.zero_le _) hs)
  · rwa [State.tick_of_faulted hf]

/-- Settles O53: a tick leaves a remainder of the interval, a reset 0, and execution writes neither. -/
theorem stepKeepsLessThanOneInterval : Obligations.StepKeepsLessThanOneInterval := by
  intro s t hs hstep
  refine step_preserves (P := State.TimeInv) hstep ?same ?exec ?tick ?reset hs
  case same =>
    intro s s' _ _ _ hacc hcfg hs
    rwa [State.TimeInv, hacc, hcfg]
  case exec =>
    intro i s t hexec _ hs
    obtain ⟨hitems, hcfg, -⟩ := exec_changesOnly hexec
    have hacc : t.acc = s.acc := hitems .acc (acc_notMem_mayChange _ i)
    rwa [State.TimeInv, hacc, hcfg]
  case tick => exact fun s e => State.tick_timeInv e
  case reset =>
    intro s t font program offset cfg hreset
    obtain ⟨-, -, hpositive, rfl⟩ := State.resetWith_eq_next hreset
    exact hpositive

/-! ### `PC` and the stack -/

/-- Where execution can leave `PC`: at the instruction itself, at one of the two after it, at a jump's target, or
at a return address. -/
theorem exec_pc_cases {i : Instr} {s t : State} (h : exec i s = .next t) :
    t.pc = s.pc ∨ t.pc = s.pc + 2 ∨ t.pc = s.pc + 4 ∨ t.pc.toNat ≤ 0x10FE ∨ t.pc ∈ s.stack := by
  have hskip : ∀ c : Bool, (s.advance.skipIf c).pc = s.pc + 2 ∨ (s.advance.skipIf c).pc = s.pc + 4 := by
    intro c
    rw [s.skip_pc (p := c = true) Iff.rfl]
    split
    · exact .inr rfl
    · exact .inl rfl
  have htarget : ∀ nnn : Addr12, (zextAddr nnn).toNat ≤ 0x10FE := by
    intro nnn
    have := nnn.isLt
    rw [zextAddr_toNat]
    omega
  cases i with
  | ret =>
    obtain ⟨-, rfl⟩ | ⟨a, rest, hs, rfl⟩ := exec_ret_cases h
    · exact .inl rfl
    · exact .inr (.inr (.inr (.inr (hs ▸ List.mem_cons_self))))
  | drw x y n => obtain ⟨-, -, rfl⟩ | ⟨-, fb, f, rfl⟩ := exec_drw_cases h <;> simp [State.raiseOutOfBounds]
  | ldB x => obtain ⟨-, rfl⟩ | ⟨-, rfl⟩ := exec_ldB_cases h <;> simp [State.raiseOutOfBounds]
  | stRegs x => obtain ⟨-, rfl⟩ | ⟨-, rfl⟩ := exec_stRegs_cases h <;> simp [State.raiseOutOfBounds]
  | ldRegs x => obtain ⟨-, rfl⟩ | ⟨-, rfl⟩ := exec_ldRegs_cases h <;> simp [State.raiseOutOfBounds]
  | se _ _ | sne _ _ | seReg _ _ | sneReg _ _ | skp _ | sknp _ =>
    cases h
    exact .inr ((hskip _).imp_right .inl)
  | jp nnn | call nnn =>
    cases h
    exact .inr (.inr (.inr (.inl (htarget nnn))))
  | jpOff nnn =>
    cases h
    have := nnn.isLt
    have := (s.jumpOffset nnn).isLt
    have hsum := zextAddr_add_zextByte_toNat nnn (s.jumpOffset nnn)
    exact .inr (.inr (.inr (.inl (hsum ▸ by omega))))
  | _ =>
    cases h
    exact .inr (.inl rfl)

/-- Execution puts nothing on the stack but the address after the instruction. -/
theorem mem_stack_of_exec {i : Instr} {s t : State} (h : exec i s = .next t) {a : Word} (ha : a ∈ t.stack) :
    a ∈ s.stack ∨ a = s.pc + 2 := by
  by_cases hkeeps : Keeps .stack s t
  · exact .inl (hkeeps ▸ ha)
  · obtain rfl | ⟨nnn, rfl⟩ := mem_mayChange_stack (mem_mayChange_of_not_keeps h hkeeps)
    · obtain ⟨-, rfl⟩ | ⟨b, rest, hs, rfl⟩ := exec_ret_cases h
      · exact .inl ha
      · exact .inl (hs ▸ List.mem_cons_of_mem b ha)
    · cases h
      exact (List.mem_cons.1 ha).symm

theorem exec_flowInv {i : Instr} {s t : State} (h : exec i s = .next t) (hpc : s.pc.toNat < 4095)
    (hs : s.FlowInv) : t.FlowInv := by
  obtain ⟨-, hstack⟩ := hs
  have hadd : ∀ d : Word, (s.pc + d).toNat ≤ s.pc.toNat + d.toNat := fun d => by
    rw [BitVec.toNat_add]
    exact Nat.mod_le _ _
  have hadd2 : (s.pc + 2).toNat ≤ s.pc.toNat + 2 := hadd 2
  have hadd4 : (s.pc + 4).toNat ≤ s.pc.toNat + 4 := hadd 4
  refine ⟨?_, fun a ha => ?_⟩
  · obtain he | he | he | hle | hmem := exec_pc_cases h
    · rw [he]
      omega
    · rw [he]
      omega
    · rw [he]
      omega
    · exact hle
    · exact Nat.le_trans (hstack _ hmem) (by decide)
  · obtain hold | rfl := mem_stack_of_exec h ha
    · exact hstack a hold
    · omega

theorem State.reset_flowInv : State.reset.FlowInv := ⟨by decide, by simp [State.reset]⟩

/-- Settles O54: an instruction is fetched below 4095, so `PC` stays below 4099 unless it jumps, at most to
0xFFF + 0xFF, or returns. -/
theorem stepKeepsControlInRange : Obligations.StepKeepsControlInRange := by
  intro s t hs hstep
  refine step_preserves (P := State.FlowInv) hstep ?same ?exec ?tick ?reset hs
  case same =>
    intro s s' _ hpc hstack _ _ hs
    rwa [State.FlowInv, hpc, hstack]
  case exec => exact fun i s t => exec_flowInv
  case tick =>
    intro s e hs
    rwa [State.FlowInv, State.tick_pc, State.tick_stack]
  case reset =>
    intro s t font program offset cfg hreset
    obtain ⟨-, -, -, rfl⟩ := State.resetWith_eq_next hreset
    exact State.reset_flowInv

/-- Settles O51: memory lists nothing, the accumulator is 0, `PC` is 0x200 and the stack is empty. -/
theorem resetSatisfiesTheInvariant : Obligations.ResetSatisfiesTheInvariant :=
  ⟨State.reset_mem_wf, by unfold State.TimeInv; decide, State.reset_flowInv⟩

end Sys2Proof.Machine

/-! ## The opcode map (spec/30_encoding.md R65, R67) -/

namespace Sys2Proof.Machine

open Sys2Proof

/-! ### What every word of a row decodes to -/

theorem decodesAs_cls : DecodesAs 0xF0FF 0x00E0 (fun _ => .cls) :=
  decodesAs_op_nn (op := 0x0) (nn := 0xE0) (by decide) fun _ => decodeWord_of_op0_nnE0

theorem decodesAs_ret : DecodesAs 0xF0FF 0x00EE (fun _ => .ret) :=
  decodesAs_op_nn (op := 0x0) (nn := 0xEE) (by decide) fun _ => decodeWord_of_op0_nnEE

theorem decodesAs_jp : DecodesAs 0xF000 0x1000 (fun w => .jp (nnnOf w)) :=
  decodesAs_op (op := 0x1) (by decide) fun _ => decodeWord_of_op1

theorem decodesAs_call : DecodesAs 0xF000 0x2000 (fun w => .call (nnnOf w)) :=
  decodesAs_op (op := 0x2) (by decide) fun _ => decodeWord_of_op2

theorem decodesAs_se : DecodesAs 0xF000 0x3000 (fun w => .se (xOf w) (nnOf w)) :=
  decodesAs_op (op := 0x3) (by decide) fun _ => decodeWord_of_op3

theorem decodesAs_sne : DecodesAs 0xF000 0x4000 (fun w => .sne (xOf w) (nnOf w)) :=
  decodesAs_op (op := 0x4) (by decide) fun _ => decodeWord_of_op4

theorem decodesAs_seReg : DecodesAs 0xF000 0x5000 (fun w => .seReg (xOf w) (yOf w)) :=
  decodesAs_op (op := 0x5) (by decide) fun _ => decodeWord_of_op5

theorem decodesAs_ldImm : DecodesAs 0xF000 0x6000 (fun w => .ldImm (xOf w) (nnOf w)) :=
  decodesAs_op (op := 0x6) (by decide) fun _ => decodeWord_of_op6

theorem decodesAs_addImm : DecodesAs 0xF000 0x7000 (fun w => .addImm (xOf w) (nnOf w)) :=
  decodesAs_op (op := 0x7) (by decide) fun _ => decodeWord_of_op7

theorem decodesAs_sneReg : DecodesAs 0xF000 0x9000 (fun w => .sneReg (xOf w) (yOf w)) :=
  decodesAs_op (op := 0x9) (by decide) fun _ => decodeWord_of_op9

theorem decodesAs_ldI : DecodesAs 0xF000 0xA000 (fun w => .ldI (nnnOf w)) :=
  decodesAs_op (op := 0xA) (by decide) fun _ => decodeWord_of_op10

theorem decodesAs_jpOff : DecodesAs 0xF000 0xB000 (fun w => .jpOff (nnnOf w)) :=
  decodesAs_op (op := 0xB) (by decide) fun _ => decodeWord_of_op11

theorem decodesAs_rnd : DecodesAs 0xF000 0xC000 (fun w => .rnd (xOf w) (nnOf w)) :=
  decodesAs_op (op := 0xC) (by decide) fun _ => decodeWord_of_op12

theorem decodesAs_drw : DecodesAs 0xF000 0xD000 (fun w => .drw (xOf w) (yOf w) (nOf w)) :=
  decodesAs_op (op := 0xD) (by decide) fun _ => decodeWord_of_op13

theorem decodesAs_ldReg : DecodesAs 0xF00F 0x8000 (fun w => .ldReg (xOf w) (yOf w)) :=
  decodesAs_op_n (op := 0x8) (n := 0x0) (by decide) fun _ => decodeWord_of_op8_n0

theorem decodesAs_orReg : DecodesAs 0xF00F 0x8001 (fun w => .orReg (xOf w) (yOf w)) :=
  decodesAs_op_n (op := 0x8) (n := 0x1) (by decide) fun _ => decodeWord_of_op8_n1

theorem decodesAs_andReg : DecodesAs 0xF00F 0x8002 (fun w => .andReg (xOf w) (yOf w)) :=
  decodesAs_op_n (op := 0x8) (n := 0x2) (by decide) fun _ => decodeWord_of_op8_n2

theorem decodesAs_xorReg : DecodesAs 0xF00F 0x8003 (fun w => .xorReg (xOf w) (yOf w)) :=
  decodesAs_op_n (op := 0x8) (n := 0x3) (by decide) fun _ => decodeWord_of_op8_n3

theorem decodesAs_addReg : DecodesAs 0xF00F 0x8004 (fun w => .addReg (xOf w) (yOf w)) :=
  decodesAs_op_n (op := 0x8) (n := 0x4) (by decide) fun _ => decodeWord_of_op8_n4

theorem decodesAs_sub : DecodesAs 0xF00F 0x8005 (fun w => .sub (xOf w) (yOf w)) :=
  decodesAs_op_n (op := 0x8) (n := 0x5) (by decide) fun _ => decodeWord_of_op8_n5

theorem decodesAs_shr : DecodesAs 0xF00F 0x8006 (fun w => .shr (xOf w) (yOf w)) :=
  decodesAs_op_n (op := 0x8) (n := 0x6) (by decide) fun _ => decodeWord_of_op8_n6

theorem decodesAs_subn : DecodesAs 0xF00F 0x8007 (fun w => .subn (xOf w) (yOf w)) :=
  decodesAs_op_n (op := 0x8) (n := 0x7) (by decide) fun _ => decodeWord_of_op8_n7

theorem decodesAs_shl : DecodesAs 0xF00F 0x800E (fun w => .shl (xOf w) (yOf w)) :=
  decodesAs_op_n (op := 0x8) (n := 0xE) (by decide) fun _ => decodeWord_of_op8_nE

theorem decodesAs_skp : DecodesAs 0xF0FF 0xE09E (fun w => .skp (xOf w)) :=
  decodesAs_op_nn (op := 0xE) (nn := 0x9E) (by decide) fun _ => decodeWord_of_opE_nn9E

theorem decodesAs_sknp : DecodesAs 0xF0FF 0xE0A1 (fun w => .sknp (xOf w)) :=
  decodesAs_op_nn (op := 0xE) (nn := 0xA1) (by decide) fun _ => decodeWord_of_opE_nnA1

theorem decodesAs_ldVxDt : DecodesAs 0xF0FF 0xF007 (fun w => .ldVxDt (xOf w)) :=
  decodesAs_op_nn (op := 0xF) (nn := 0x07) (by decide) fun _ => decodeWord_of_opF_nn07

theorem decodesAs_ldVxK : DecodesAs 0xF0FF 0xF00A (fun w => .ldVxK (xOf w)) :=
  decodesAs_op_nn (op := 0xF) (nn := 0x0A) (by decide) fun _ => decodeWord_of_opF_nn0A

theorem decodesAs_ldDt : DecodesAs 0xF0FF 0xF015 (fun w => .ldDt (xOf w)) :=
  decodesAs_op_nn (op := 0xF) (nn := 0x15) (by decide) fun _ => decodeWord_of_opF_nn15

theorem decodesAs_ldSt : DecodesAs 0xF0FF 0xF018 (fun w => .ldSt (xOf w)) :=
  decodesAs_op_nn (op := 0xF) (nn := 0x18) (by decide) fun _ => decodeWord_of_opF_nn18

theorem decodesAs_addI : DecodesAs 0xF0FF 0xF01E (fun w => .addI (xOf w)) :=
  decodesAs_op_nn (op := 0xF) (nn := 0x1E) (by decide) fun _ => decodeWord_of_opF_nn1E

theorem decodesAs_ldF : DecodesAs 0xF0FF 0xF029 (fun w => .ldF (xOf w)) :=
  decodesAs_op_nn (op := 0xF) (nn := 0x29) (by decide) fun _ => decodeWord_of_opF_nn29

theorem decodesAs_ldB : DecodesAs 0xF0FF 0xF033 (fun w => .ldB (xOf w)) :=
  decodesAs_op_nn (op := 0xF) (nn := 0x33) (by decide) fun _ => decodeWord_of_opF_nn33

theorem decodesAs_stRegs : DecodesAs 0xF0FF 0xF055 (fun w => .stRegs (xOf w)) :=
  decodesAs_op_nn (op := 0xF) (nn := 0x55) (by decide) fun _ => decodeWord_of_opF_nn55

theorem decodesAs_ldRegs : DecodesAs 0xF0FF 0xF065 (fun w => .ldRegs (xOf w)) :=
  decodesAs_op_nn (op := 0xF) (nn := 0x65) (by decide) fun _ => decodeWord_of_opF_nn65

/-! ### Rows and mnemonics -/

/-- A word of a row decodes to an instruction that bears the row's mnemonic. -/
def RowDecodes (r : OpcodeRow) : Prop := ∀ w, r.matches w = true → (decodeWord w).mnemonic = r.mnemonic

theorem rowDecodes {m : String} {mask value : Word} {f : Word → Instr} (h : DecodesAs mask value f)
    (hm : ∀ w, (f w).mnemonic = m) : RowDecodes ⟨m, mask, value⟩ := by
  intro w hw
  rw [h w (beq_iff_eq.1 hw), hm]

theorem rowDecodes_of_mem_opcodeRowsOp : ∀ r ∈ opcodeRowsOp, RowDecodes r := by
  simp only [opcodeRowsOp, List.cons_append, List.nil_append, List.forall_mem_cons]
  exact ⟨rowDecodes decodesAs_cls fun _ => rfl,
    rowDecodes decodesAs_ret fun _ => rfl,
    rowDecodes decodesAs_jp fun _ => rfl,
    rowDecodes decodesAs_call fun _ => rfl,
    rowDecodes decodesAs_se fun _ => rfl,
    rowDecodes decodesAs_sne fun _ => rfl,
    rowDecodes decodesAs_seReg fun _ => rfl,
    rowDecodes decodesAs_ldImm fun _ => rfl,
    rowDecodes decodesAs_addImm fun _ => rfl,
    rowDecodes decodesAs_sneReg fun _ => rfl,
    rowDecodes decodesAs_ldI fun _ => rfl,
    rowDecodes decodesAs_jpOff fun _ => rfl,
    rowDecodes decodesAs_rnd fun _ => rfl,
    rowDecodes decodesAs_drw fun _ => rfl, by simp⟩

theorem rowDecodes_of_mem_opcodeRows8 : ∀ r ∈ opcodeRows8, RowDecodes r := by
  simp only [opcodeRows8, List.forall_mem_cons]
  exact ⟨rowDecodes decodesAs_ldReg fun _ => rfl,
    rowDecodes decodesAs_orReg fun _ => rfl,
    rowDecodes decodesAs_andReg fun _ => rfl,
    rowDecodes decodesAs_xorReg fun _ => rfl,
    rowDecodes decodesAs_addReg fun _ => rfl,
    rowDecodes decodesAs_sub fun _ => rfl,
    rowDecodes decodesAs_shr fun _ => rfl,
    rowDecodes decodesAs_subn fun _ => rfl,
    rowDecodes decodesAs_shl fun _ => rfl, by simp⟩

theorem rowDecodes_of_mem_opcodeRowsEF : ∀ r ∈ opcodeRowsEF, RowDecodes r := by
  simp only [opcodeRowsEF, List.forall_mem_cons]
  exact ⟨rowDecodes decodesAs_skp fun _ => rfl,
    rowDecodes decodesAs_sknp fun _ => rfl,
    rowDecodes decodesAs_ldVxDt fun _ => rfl,
    rowDecodes decodesAs_ldVxK fun _ => rfl,
    rowDecodes decodesAs_ldDt fun _ => rfl,
    rowDecodes decodesAs_ldSt fun _ => rfl,
    rowDecodes decodesAs_addI fun _ => rfl,
    rowDecodes decodesAs_ldF fun _ => rfl,
    rowDecodes decodesAs_ldB fun _ => rfl,
    rowDecodes decodesAs_stRegs fun _ => rfl,
    rowDecodes decodesAs_ldRegs fun _ => rfl, by simp⟩

theorem rowDecodes_of_mem {r : OpcodeRow} (h : r ∈ opcodeMap) : RowDecodes r := by
  obtain h | h := List.mem_append.1 h
  · exact (List.mem_append.1 h).elim (rowDecodes_of_mem_opcodeRowsOp r) (rowDecodes_of_mem_opcodeRows8 r)
  · exact rowDecodes_of_mem_opcodeRowsEF r h

/-- No two rows bear one mnemonic. -/
theorem eq_of_mnemonic_eq {r r' : OpcodeRow} (h : r ∈ opcodeMap) (h' : r' ∈ opcodeMap)
    (hm : r.mnemonic = r'.mnemonic) : r = r' :=
  List.inj_on_of_nodup_map (f := OpcodeRow.mnemonic) (by decide) h h' hm

theorem mnemonic_ne_unknown : ∀ r ∈ opcodeMap, r.mnemonic ≠ "UNKNOWN" := by decide

/-! ### Every word outside R67's table has a row -/

open Laws.EncodesInRow

/-- The key of a word, where its number is among the numbers of the keys `ks`. -/
theorem mem_of_toNat_mem {n : Nat} {a : BitVec n} {ks : List (BitVec n)} (h : a.toNat ∈ ks.map BitVec.toNat) :
    a ∈ ks := by
  obtain ⟨b, hb, he⟩ := List.mem_map.1 h
  rwa [← BitVec.eq_of_toNat_eq he]

theorem exists_row_of_op0 {w : Word} (hop : opOf w = 0#4) (h : (nnOf w).toNat ∈ [0xE0, 0xEE]) :
    ∃ r ∈ opcodeMap, r.matches w = true := by
  have hmem : nnOf w ∈ [0xE0#8, 0xEE#8] := mem_of_toNat_mem h
  simp only [List.mem_cons, List.not_mem_nil, or_false] at hmem
  rcases hmem with hk | hk
  · exact ⟨⟨"CLS", 0xF0FF, 0x00E0⟩, by decide, matches_op_nn (by decide) hop hk⟩
  · exact ⟨⟨"RET", 0xF0FF, 0x00EE⟩, by decide, matches_op_nn (by decide) hop hk⟩

theorem exists_row_of_op8 {w : Word} (hop : opOf w = 8#4)
    (h : (nOf w).toNat ∉ [0x8, 0x9, 0xA, 0xB, 0xC, 0xD, 0xF]) : ∃ r ∈ opcodeMap, r.matches w = true := by
  have hmem : nOf w ∈ [0#4, 1#4, 2#4, 3#4, 4#4, 5#4, 6#4, 7#4, 14#4] := by
    revert h
    generalize nOf w = n
    decide +revert
  simp only [List.mem_cons, List.not_mem_nil, or_false] at hmem
  rcases hmem with hk | hk | hk | hk | hk | hk | hk | hk | hk
  · exact ⟨⟨"LD_REG", 0xF00F, 0x8000⟩, by decide, matches_op_n (by decide) hop hk⟩
  · exact ⟨⟨"OR", 0xF00F, 0x8001⟩, by decide, matches_op_n (by decide) hop hk⟩
  · exact ⟨⟨"AND", 0xF00F, 0x8002⟩, by decide, matches_op_n (by decide) hop hk⟩
  · exact ⟨⟨"XOR", 0xF00F, 0x8003⟩, by decide, matches_op_n (by decide) hop hk⟩
  · exact ⟨⟨"ADD_REG", 0xF00F, 0x8004⟩, by decide, matches_op_n (by decide) hop hk⟩
  · exact ⟨⟨"SUB", 0xF00F, 0x8005⟩, by decide, matches_op_n (by decide) hop hk⟩
  · exact ⟨⟨"SHR", 0xF00F, 0x8006⟩, by decide, matches_op_n (by decide) hop hk⟩
  · exact ⟨⟨"SUBN", 0xF00F, 0x8007⟩, by decide, matches_op_n (by decide) hop hk⟩
  · exact ⟨⟨"SHL", 0xF00F, 0x800E⟩, by decide, matches_op_n (by decide) hop hk⟩

theorem exists_row_of_opE {w : Word} (hop : opOf w = 14#4) (h : (nnOf w).toNat ∈ [0x9E, 0xA1]) :
    ∃ r ∈ opcodeMap, r.matches w = true := by
  have hmem : nnOf w ∈ [0x9E#8, 0xA1#8] := mem_of_toNat_mem h
  simp only [List.mem_cons, List.not_mem_nil, or_false] at hmem
  rcases hmem with hk | hk
  · exact ⟨⟨"SKP", 0xF0FF, 0xE09E⟩, by decide, matches_op_nn (by decide) hop hk⟩
  · exact ⟨⟨"SKNP", 0xF0FF, 0xE0A1⟩, by decide, matches_op_nn (by decide) hop hk⟩

theorem exists_row_of_opF {w : Word} (hop : opOf w = 15#4)
    (h : (nnOf w).toNat ∈ [0x07, 0x0A, 0x15, 0x18, 0x1E, 0x29, 0x33, 0x55, 0x65]) :
    ∃ r ∈ opcodeMap, r.matches w = true := by
  have hmem : nnOf w ∈ [0x07#8, 0x0A#8, 0x15#8, 0x18#8, 0x1E#8, 0x29#8, 0x33#8, 0x55#8, 0x65#8] :=
    mem_of_toNat_mem h
  simp only [List.mem_cons, List.not_mem_nil, or_false] at hmem
  rcases hmem with hk | hk | hk | hk | hk | hk | hk | hk | hk
  · exact ⟨⟨"LD_VX_DT", 0xF0FF, 0xF007⟩, by decide, matches_op_nn (by decide) hop hk⟩
  · exact ⟨⟨"LD_VX_K", 0xF0FF, 0xF00A⟩, by decide, matches_op_nn (by decide) hop hk⟩
  · exact ⟨⟨"LD_DT", 0xF0FF, 0xF015⟩, by decide, matches_op_nn (by decide) hop hk⟩
  · exact ⟨⟨"LD_ST", 0xF0FF, 0xF018⟩, by decide, matches_op_nn (by decide) hop hk⟩
  · exact ⟨⟨"ADD_I", 0xF0FF, 0xF01E⟩, by decide, matches_op_nn (by decide) hop hk⟩
  · exact ⟨⟨"LD_F", 0xF0FF, 0xF029⟩, by decide, matches_op_nn (by decide) hop hk⟩
  · exact ⟨⟨"LD_B", 0xF0FF, 0xF033⟩, by decide, matches_op_nn (by decide) hop hk⟩
  · exact ⟨⟨"ST_REGS", 0xF0FF, 0xF055⟩, by decide, matches_op_nn (by decide) hop hk⟩
  · exact ⟨⟨"LD_REGS", 0xF0FF, 0xF065⟩, by decide, matches_op_nn (by decide) hop hk⟩

theorem exists_row_of_recognised {w : Word} (h : ¬unrecognised w = true) :
    ∃ r ∈ opcodeMap, r.matches w = true := by
  simp only [unrecognised_iff, not_or, not_and, not_not] at h
  obtain ⟨h0, h8, hE, hF⟩ := h
  rcases nibble_cases (opOf w) with e | e | e | e | e | e | e | e | e | e | e | e | e | e | e | e
  · exact exists_row_of_op0 e (h0 e)
  · exact ⟨⟨"JP", 0xF000, 0x1000⟩, by decide, matches_op (by decide) e⟩
  · exact ⟨⟨"CALL", 0xF000, 0x2000⟩, by decide, matches_op (by decide) e⟩
  · exact ⟨⟨"SE", 0xF000, 0x3000⟩, by decide, matches_op (by decide) e⟩
  · exact ⟨⟨"SNE", 0xF000, 0x4000⟩, by decide, matches_op (by decide) e⟩
  · exact ⟨⟨"SE_REG", 0xF000, 0x5000⟩, by decide, matches_op (by decide) e⟩
  · exact ⟨⟨"LD_IMM", 0xF000, 0x6000⟩, by decide, matches_op (by decide) e⟩
  · exact ⟨⟨"ADD_IMM", 0xF000, 0x7000⟩, by decide, matches_op (by decide) e⟩
  · exact exists_row_of_op8 e (h8 e)
  · exact ⟨⟨"SNE_REG", 0xF000, 0x9000⟩, by decide, matches_op (by decide) e⟩
  · exact ⟨⟨"LD_I", 0xF000, 0xA000⟩, by decide, matches_op (by decide) e⟩
  · exact ⟨⟨"JP_OFF", 0xF000, 0xB000⟩, by decide, matches_op (by decide) e⟩
  · exact ⟨⟨"RND", 0xF000, 0xC000⟩, by decide, matches_op (by decide) e⟩
  · exact ⟨⟨"DRW", 0xF000, 0xD000⟩, by decide, matches_op (by decide) e⟩
  · exact exists_row_of_opE e (hE e)
  · exact exists_row_of_opF e (hF e)

/-- A word decodes to itself exactly when it has no row. -/
theorem decodeWord_eq_unknown_iff (w : Word) :
    decodeWord w = .unknown w ↔ ∀ r ∈ opcodeMap, r.matches w = false := by
  constructor
  · intro hunknown r hr
    by_contra hmatch
    have hm : (decodeWord w).mnemonic = r.mnemonic := rowDecodes_of_mem hr w (Bool.eq_true_of_not_eq_false hmatch)
    rw [hunknown] at hm
    exact mnemonic_ne_unknown r hr hm.symm
  · intro hnone
    refine decodeWord_of_unrecognised ?_
    by_contra hrec
    obtain ⟨r, hr, hmatch⟩ := exists_row_of_recognised hrec
    rw [hnone r hr] at hmatch
    cases hmatch

/-- Settles O4: a word outside the table has a row, so it does not decode to itself. -/
theorem unrecognisedWordsAreTheTable : Obligations.UnrecognisedWordsAreTheTable := by
  refine fun w => ⟨fun hunknown => ?_, decodeWord_of_unrecognised⟩
  by_contra hrec
  obtain ⟨r, hr, hmatch⟩ := exists_row_of_recognised hrec
  rw [(decodeWord_eq_unknown_iff w).1 hunknown r hr] at hmatch
  cases hmatch

/-- Settles O3: a word of a row decodes to the row's mnemonic, mnemonics tell rows apart, and a word without a row
is unknown, whose mnemonic no row bears. -/
theorem decodingFollowsTheOpcodeMap : Obligations.DecodingFollowsTheOpcodeMap := by
  refine fun w => ⟨fun r hr => ⟨fun hm => ?_, rowDecodes_of_mem hr w⟩, fun r hr r' hr' hmatch hmatch' => ?_,
    (decodeWord_eq_unknown_iff w).symm⟩
  · by_cases hnone : ∀ r' ∈ opcodeMap, r'.matches w = false
    · rw [(decodeWord_eq_unknown_iff w).2 hnone] at hm
      exact absurd hm.symm (mnemonic_ne_unknown r hr)
    · simp only [not_forall, Bool.not_eq_false] at hnone
      obtain ⟨r', hr', hmatch⟩ := hnone
      have hsame : r' = r := eq_of_mnemonic_eq hr' hr ((rowDecodes_of_mem hr' w hmatch).symm.trans hm)
      rwa [← hsame]
  · exact eq_of_mnemonic_eq hr hr' ((rowDecodes_of_mem hr w hmatch).symm.trans (rowDecodes_of_mem hr' w hmatch'))

/-- Settles O5: each of the twelve words is decoded by evaluation. -/
theorem specWordsDecode : Obligations.SpecWordsDecode := by
  unfold Obligations.SpecWordsDecode
  decide

end Sys2Proof.Machine

/-! ## Fatal conditions (spec/60_exceptions.md R200 to R203) -/

namespace Sys2Proof.Machine

open Sys2Proof

/-- The causes of R201 and R202: the instruction raises the condition in this state. -/
inductive Raises (s : State) : Instr → FaultLatch → Prop where
  | ret (h : s.stack = []) : Raises s .ret .stackUnderflow
  | drw {x y n : Nibble} (hn : n ≠ 0) (h : 4096 < s.base + n.toNat) : Raises s (.drw x y n) .outOfBounds
  | ldB {x : Nibble} (h : 4096 < s.base + 3) : Raises s (.ldB x) .outOfBounds
  | stRegs {x : Nibble} (h : 4096 < s.base + (x.toNat + 1)) : Raises s (.stRegs x) .outOfBounds
  | ldRegs {x : Nibble} (h : 4096 < s.base + (x.toNat + 1)) : Raises s (.ldRegs x) .outOfBounds

/-- Execution raises one of its causes and takes it, or has no cause and leaves `FAULT` alone. -/
theorem exec_fault_cases {i : Instr} {s t : State} (h : exec i s = .next t) :
    (∃ f info, Raises s i f ∧ t = s.takeFatal f info) ∨ ((∀ f, ¬Raises s i f) ∧ t.fault = s.fault) := by
  cases i with
  | ret =>
    obtain ⟨hs, rfl⟩ | ⟨a, rest, hs, rfl⟩ := exec_ret_cases h
    · exact .inl ⟨_, _, .ret hs, rfl⟩
    · refine .inr ⟨?_, rfl⟩
      rintro f ⟨hnil⟩
      simp [hs] at hnil
  | drw x y n =>
    obtain ⟨hn, hout, rfl⟩ | ⟨hin, fb, f, rfl⟩ := exec_drw_cases h
    · exact .inl ⟨_, _, .drw hn hout, rfl⟩
    · refine .inr ⟨?_, rfl⟩
      rintro f (_ | ⟨hn, hout⟩)
      exact hin.elim hn (Nat.not_le_of_lt hout)
  | ldB x =>
    obtain ⟨hout, rfl⟩ | ⟨hin, rfl⟩ := exec_ldB_cases h
    · exact .inl ⟨_, _, .ldB hout, rfl⟩
    · refine .inr ⟨?_, rfl⟩
      rintro f (_ | _ | hout)
      exact Nat.not_le_of_lt hout hin
  | stRegs x =>
    obtain ⟨hout, rfl⟩ | ⟨hin, rfl⟩ := exec_stRegs_cases h
    · exact .inl ⟨_, _, .stRegs hout, rfl⟩
    · refine .inr ⟨?_, rfl⟩
      rintro f (_ | _ | _ | hout)
      exact Nat.not_le_of_lt hout hin
  | ldRegs x =>
    obtain ⟨hout, rfl⟩ | ⟨hin, rfl⟩ := exec_ldRegs_cases h
    · exact .inl ⟨_, _, .ldRegs hout, rfl⟩
    · refine .inr ⟨?_, rfl⟩
      rintro f (_ | _ | _ | _ | hout)
      exact Nat.not_le_of_lt hout hin
  | _ =>
    cases h
    exact .inr ⟨nofun, rfl⟩

/-- An instruction raises at most one condition. -/
theorem Raises.unique {s : State} {i : Instr} {f f' : FaultLatch} (h : Raises s i f) (h' : Raises s i f') :
    f = f' := by
  cases h <;> cases h' <;> rfl

theorem Raises.ne_none {s : State} {i : Instr} {f : FaultLatch} (h : Raises s i f) : f ≠ .none := by
  cases h <;> simp

/-- From a state without a fault the latch afterwards is the condition raised. -/
theorem exec_fault_eq_iff {i : Instr} {s t : State} (hs : s.fault = .none) (h : exec i s = .next t)
    {f : FaultLatch} (hf : f ≠ .none) : t.fault = f ↔ Raises s i f := by
  obtain ⟨f', info, hraises, rfl⟩ | ⟨hnone, hkept⟩ := exec_fault_cases h
  · exact ⟨fun he => he ▸ hraises, fun hr => hraises.unique hr⟩
  · rw [hkept, hs]
    exact ⟨fun he => absurd he.symm hf, fun hr => absurd hr (hnone f)⟩

theorem raises_stackUnderflow_iff {s : State} {i : Instr} :
    Raises s i .stackUnderflow ↔ i = .ret ∧ s.stack = [] := by
  constructor
  · rintro ⟨h⟩
    exact ⟨rfl, h⟩
  · rintro ⟨rfl, h⟩
    exact .ret h

theorem raises_outOfBounds_iff {s : State} {i : Instr} : Raises s i .outOfBounds ↔
    (∃ x y n, i = .drw x y n ∧ 1 ≤ n.toNat ∧ 4096 ≤ s.base + n.toNat - 1) ∨
    (∃ x, i = .ldB x ∧ 4096 ≤ s.base + 2) ∨
    (∃ x, (i = .stRegs x ∨ i = .ldRegs x) ∧ 4096 ≤ s.base + x.toNat) := by
  constructor
  · rintro (_ | ⟨hn, h⟩ | h | h | h)
    · have hpos := Nat.pos_of_ne_zero fun e => hn (BitVec.eq_of_toNat_eq e)
      exact .inl ⟨_, _, _, rfl, hpos, Nat.le_sub_one_of_lt h⟩
    · exact .inr (.inl ⟨_, rfl, by omega⟩)
    · exact .inr (.inr ⟨_, .inl rfl, by omega⟩)
    · exact .inr (.inr ⟨_, .inr rfl, by omega⟩)
  · rintro (⟨x, y, n, rfl, hn, h⟩ | ⟨x, rfl, h⟩ | ⟨x, rfl | rfl, h⟩)
    · exact .drw (by rintro rfl; simp at hn) (by omega)
    · exact .ldB (by omega)
    · exact .stRegs (by omega)
    · exact .ldRegs (by omega)

/-- Settles O11: the latch after an instruction is the condition it raises. -/
theorem fatalConditionsAreExactlyThese : Obligations.FatalConditionsAreExactlyThese := fun _ _ _ hs h =>
  ⟨(exec_fault_eq_iff hs h (by simp)).trans raises_stackUnderflow_iff,
    (exec_fault_eq_iff hs h (by simp)).trans raises_outOfBounds_iff⟩

/-! ### A step that ends faulted -/

@[simp] theorem State.keyBlockPhase_fault (s : State) (x : Nibble) : (s.keyBlockPhase x).fault = s.fault := by
  cases h : firstHeld s.keys with
  | none => rw [State.keyBlockPhase_of_none h]
  | some k => rw [State.keyBlockPhase_of_some h, State.setV_fault]

/-- From a state without a fault, a step that ends faulted has taken a fatal condition and done nothing else. -/
theorem State.cycle_fatal {s t : State} {keys : Vector Bool 16} {rand : Byte} (hs : s.fault = .none)
    (h : s.cycle keys rand = .next t) (ht : t.fault ≠ .none) :
    ∃ f info, t = (s.supply keys rand).takeFatal f info := by
  have hsupply : (s.supply keys rand).fault = .none := hs
  cases hb : s.blocked with
  | some x =>
    rw [State.cycle_of_blocked hs hb] at h
    cases h
    exact absurd hsupply (by rwa [State.keyBlockPhase_fault] at ht)
  | none =>
    rw [State.cycle_of_ready hs hb] at h
    cases hw : (s.supply keys rand).fetch with
    | error a =>
      rw [State.fetchExec_of_error hw] at h
      cases h
      exact ⟨_, _, rfl⟩
    | ok w =>
      rw [State.fetchExec_of_ok hw] at h
      obtain ⟨f, info, -, he⟩ | ⟨-, hkept⟩ := exec_fault_cases h
      · exact ⟨f, info, he⟩
      · exact absurd (hkept.trans hsupply) ht

/-- The frame of a step that takes a fatal condition: the supplied keys and the latch. -/
theorem changesOnly_supply_takeFatal (s : State) (keys : Vector Bool 16) (rand : Byte) (f : FaultLatch)
    (info : Option Nat) :
    ChangesOnly [.keys, .fault] { s with rand := rand } ((s.supply keys rand).takeFatal f info) :=
  ⟨fun it h => by cases it <;> simp_all [Keeps, State.supply], rfl, rfl, rfl, rfl⟩

/-- Settles O10: such a step, in the fetch or in execution, has taken a fatal condition and done nothing else. -/
theorem fatalStepKeepsEverythingElse : Obligations.FatalStepKeepsEverythingElse := by
  intro s t keys rand hs h ht
  obtain ⟨f, info, rfl⟩ := State.cycle_fatal hs h ht
  exact ⟨changesOnly_supply_takeFatal s keys rand f info, rfl, rfl, rfl⟩

end Sys2Proof.Machine

/-! ## What an instruction writes and reads (spec/10_state.md R10 to R16) -/

namespace Sys2Proof.Machine

open Sys2Proof

/-! ### Registers -/

theorem State.getV_loadedRegs_of_lt {s t : State} {x r : Nibble} (ht : t.v = s.loadedRegs x)
    (h : x.toNat < r.toNat) : t.getV r = s.getV r := by
  have hr : r.toNat < 16 := r.isLt
  simp only [State.getV, ht]
  rw [State.getElem_loadedRegs s x r.toNat hr, if_neg (Nat.not_le_of_lt h)]

theorem State.getV_advance_setV_setFlag_of_ne {s : State} {x r : Nibble} (hflag : r ≠ flagReg) (hx : r ≠ x)
    (b : Byte) (f : Bool) : ((s.advance.setV x b).setFlag f).getV r = s.getV r := by
  rw [State.getV_setFlag, if_neg hflag, State.getV_setV, if_neg hx, State.advance_getV]

/-- Settles O13: an instruction writes no register, `V[x]`, `V[x]` and then `VF`, `VF` alone, or `V[0]` to
`V[x]`. -/
theorem registersChangeOnlyAsNamed : Obligations.RegistersChangeOnlyAsNamed := by
  intro i s t r h hnamed hflag
  cases i with
  | ldImm x _ | addImm x _ | rnd x _ | ldVxDt x | ldReg x _ | orReg x _ | andReg x _ | xorReg x _ =>
    cases h
    have hx : r ≠ x := beq_eq_false_iff_ne.1 hnamed
    exact (s.advance.getV_setV x r _).trans (if_neg hx)
  | addReg x _ | sub x _ | shr x _ | subn x _ | shl x _ =>
    cases h
    have hx : r ≠ x := beq_eq_false_iff_ne.1 hnamed
    have hne : r ≠ flagReg := fun he => Bool.noConfusion (hflag he)
    exact State.getV_advance_setV_setFlag_of_ne hne hx _ _
  | drw x y n =>
    have hne : r ≠ flagReg := fun he => Bool.noConfusion (hflag he)
    obtain ⟨-, -, rfl⟩ | ⟨-, fb, f, rfl⟩ := exec_drw_cases h
    · rfl
    · exact (State.getV_setFlag _ r f).trans (if_neg hne)
  | ldRegs x =>
    have hgt : x.toNat < r.toNat := Nat.lt_of_not_le (of_decide_eq_false hnamed)
    obtain ⟨-, rfl⟩ | ⟨-, rfl⟩ := exec_ldRegs_cases h
    · rfl
    · exact State.getV_loadedRegs_of_lt rfl hgt
  | ret => obtain ⟨-, rfl⟩ | ⟨a, rest, -, rfl⟩ := exec_ret_cases h <;> rfl
  | ldB x => obtain ⟨-, rfl⟩ | ⟨-, rfl⟩ := exec_ldB_cases h <;> rfl
  | stRegs x => obtain ⟨-, rfl⟩ | ⟨-, rfl⟩ := exec_stRegs_cases h <;> rfl
  | _ =>
    cases h
    rfl

/-! ### Items that are not read -/

/-- New contents for some of the items that only a few instructions read, and for the draw. -/
structure Replacement where
  keys : Option (Vector Bool 16) := none
  rand : Option Byte := none
  dt : Option Byte := none
  st : Option Byte := none
  mem : Option Memory := none
  fb : Option Framebuffer := none

def State.replace (r : Replacement) (s : State) : State :=
  { s with
    keys := r.keys.getD s.keys
    rand := r.rand.getD s.rand
    dt := r.dt.getD s.dt
    st := r.st.getD s.st
    mem := r.mem.getD s.mem
    fb := r.fb.getD s.fb }

/-- The replacement spares what the instruction reads, and what it overwrites. -/
def Replacement.Spares (r : Replacement) : Instr → Prop
  | .skp _ | .sknp _ => r.keys = none
  | .rnd _ _ => r.rand = none
  | .ldVxDt _ | .ldDt _ => r.dt = none
  | .ldSt _ => r.st = none
  | .ldB _ | .stRegs _ | .ldRegs _ => r.mem = none
  | .cls => r.fb = none
  | .drw _ _ _ => r.mem = none ∧ r.fb = none
  | _ => True

/-- Such a replacement before the instruction only replaces after it. -/
theorem exec_replace {r : Replacement} {i : Instr} (h : r.Spares i) (s : State) :
    exec i (s.replace r) = mapNext (State.replace r) (exec i s) := by
  obtain ⟨keys, rand, dt, st, mem, fb⟩ := r
  cases i with
  | skp x | sknp x =>
    obtain rfl : keys = none := h
    rfl
  | rnd x nn =>
    obtain rfl : rand = none := h
    rfl
  | ldVxDt x | ldDt x =>
    obtain rfl : dt = none := h
    rfl
  | ldSt x =>
    obtain rfl : st = none := h
    rfl
  | cls =>
    obtain rfl : fb = none := h
    rfl
  | ret =>
    rcases hs : s.stack with _ | ⟨a, rest⟩
    · rw [exec_ret_of_nil hs, exec_ret_of_nil (s := s.replace _) hs]
      rfl
    · rw [exec_ret_of_cons hs, exec_ret_of_cons (s := s.replace _) hs]
      rfl
  | drw x y n =>
    obtain ⟨rfl, rfl⟩ : mem = none ∧ fb = none := h
    by_cases hin : n = 0 ∨ s.base + n.toNat ≤ 4096
    · rw [exec_drw_of_inside hin, exec_drw_of_inside (s := s.replace _) hin]
      rfl
    · obtain ⟨hn, hout⟩ := not_or.1 hin
      rw [exec_drw_of_outside hn (Nat.lt_of_not_le hout),
        exec_drw_of_outside (s := s.replace _) hn (Nat.lt_of_not_le hout)]
      rfl
  | ldB x =>
    obtain rfl : mem = none := h
    rcases Nat.lt_or_ge 4096 (s.base + 3) with hout | hin
    · rw [exec_ldB_of_outside hout, exec_ldB_of_outside (s := s.replace _) hout]
      rfl
    · rw [exec_ldB_of_inside hin, exec_ldB_of_inside (s := s.replace _) hin]
      rfl
  | stRegs x =>
    obtain rfl : mem = none := h
    rcases Nat.lt_or_ge 4096 (s.base + (x.toNat + 1)) with hout | hin
    · rw [exec_stRegs_of_outside hout, exec_stRegs_of_outside (s := s.replace _) hout]
      rfl
    · rw [exec_stRegs_of_inside hin, exec_stRegs_of_inside (s := s.replace _) hin]
      rfl
  | ldRegs x =>
    obtain rfl : mem = none := h
    rcases Nat.lt_or_ge 4096 (s.base + (x.toNat + 1)) with hout | hin
    · rw [exec_ldRegs_of_outside hout, exec_ldRegs_of_outside (s := s.replace _) hout]
      rfl
    · rw [exec_ldRegs_of_inside hin, exec_ldRegs_of_inside (s := s.replace _) hin]
      rfl
  | _ => rfl

theorem spares_keys {i : Instr} (h : ∀ x, i ≠ .skp x ∧ i ≠ .sknp x) (k : Vector Bool 16) :
    Replacement.Spares { keys := some k } i := by
  cases i with
  | skp x => exact absurd rfl (h x).1
  | sknp x => exact absurd rfl (h x).2
  | _ => simp [Replacement.Spares]

theorem spares_rand {i : Instr} (h : ∀ x nn, i ≠ .rnd x nn) (b : Byte) :
    Replacement.Spares { rand := some b } i := by
  cases i with
  | rnd x nn => exact absurd rfl (h x nn)
  | _ => simp [Replacement.Spares]

theorem spares_dt {i : Instr} (h : ∀ x, i ≠ .ldVxDt x ∧ i ≠ .ldDt x) (b : Byte) :
    Replacement.Spares { dt := some b } i := by
  cases i with
  | ldVxDt x => exact absurd rfl (h x).1
  | ldDt x => exact absurd rfl (h x).2
  | _ => simp [Replacement.Spares]

theorem spares_st {i : Instr} (h : ∀ x, i ≠ .ldSt x) (b : Byte) : Replacement.Spares { st := some b } i := by
  cases i with
  | ldSt x => exact absurd rfl (h x)
  | _ => simp [Replacement.Spares]

theorem spares_mem {i : Instr} (h : ∀ x, i ≠ .ldB x ∧ i ≠ .stRegs x ∧ i ≠ .ldRegs x)
    (hdrw : ∀ x y n, i ≠ .drw x y n) (m : Memory) : Replacement.Spares { mem := some m } i := by
  cases i with
  | ldB x => exact absurd rfl (h x).1
  | stRegs x => exact absurd rfl (h x).2.1
  | ldRegs x => exact absurd rfl (h x).2.2
  | drw x y n => exact absurd rfl (hdrw x y n)
  | _ => simp [Replacement.Spares]

theorem spares_fb {i : Instr} (hcls : i ≠ .cls) (hdrw : ∀ x y n, i ≠ .drw x y n) (fb : Framebuffer) :
    Replacement.Spares { fb := some fb } i := by
  cases i with
  | cls => exact absurd rfl hcls
  | drw x y n => exact absurd rfl (hdrw x y n)
  | _ => simp [Replacement.Spares]

/-- Settles O14: each clause replaces one item that the instruction neither reads nor overwrites. -/
theorem unreadItemsDoNotMatter : Obligations.UnreadItemsDoNotMatter := fun _ s =>
  ⟨fun k h => exec_replace (spares_keys h k) s, fun b h => exec_replace (spares_rand h b) s,
    fun b h => exec_replace (spares_dt h b) s, fun b h => exec_replace (spares_st h b) s,
    fun m h hdrw => exec_replace (spares_mem h hdrw m) s,
    fun fb hcls hdrw => exec_replace (spares_fb hcls hdrw fb) s⟩

end Sys2Proof.Machine

/-! ## Fetch and step (spec/20_memory.md R44, spec/40_cycle_engine.md R80 to R88) -/

namespace Sys2Proof.Machine

open Sys2Proof

/-! ### The fetched word -/

theorem wordOfBytes_toNat (hi lo : Byte) : (wordOfBytes hi lo).toNat = hi.toNat * 256 + lo.toNat := by
  have := hi.isLt
  have := lo.isLt
  exact Nat.mod_eq_of_lt (by omega)

/-- Two bytes that can be read are fetched. -/
theorem State.fetch_of_read {s : State} {hi lo : Byte} (hhi : s.mem.read s.pc.toNat = some hi)
    (hlo : s.mem.read (s.pc.toNat + 1) = some lo) : s.fetch = .ok (wordOfBytes hi lo) := by
  obtain ⟨-, rfl⟩ := Memory.read_eq_some.1 hhi
  obtain ⟨hlt, rfl⟩ := Memory.read_eq_some.1 hlo
  exact State.fetch_of_lt (by omega)

/-- Settles O7: below 4095 both bytes can be read and their word does not wrap; from 4095 on the fetch fails. -/
theorem fetchIsBigEndianAndBounded : Obligations.FetchIsBigEndianAndBounded := by
  refine fun s => ⟨fun hlt => ?_, fun hge keys rand hfault hblocked => ?_⟩
  · exact ⟨_, _, _, s.mem.read_of_lt (by omega), s.mem.read_of_lt (by omega), State.fetch_of_lt hlt,
      wordOfBytes_toNat _ _⟩
  · have hfetch : (s.supply keys rand).fetch = .error (max s.pc.toNat 4096) := State.fetch_of_ge hge
    refine ⟨_, ?_, rfl, rfl, changesOnly_takeFatal _ _ _⟩
    rw [State.cycle_of_ready hfault hblocked, State.fetchExec_of_error hfetch]
    rfl

/-- A step in a state that is neither faulted nor blocked and whose two bytes at `PC` can be read. -/
theorem State.cycle_of_read {s : State} (hfault : s.fault = .none) (hblocked : s.blocked = none) {hi lo : Byte}
    (hhi : s.mem.read s.pc.toNat = some hi) (hlo : s.mem.read (s.pc.toNat + 1) = some lo)
    (keys : Vector Bool 16) (rand : Byte) :
    s.cycle keys rand = exec (decodeWord (wordOfBytes hi lo)) (s.supply keys rand) := by
  rw [State.cycle_of_ready hfault hblocked, State.fetchExec_of_ok ((s.supply_fetch keys rand).trans
    (State.fetch_of_read hhi hlo))]

/-! ### The next transaction -/

/-- Settles O55: each clause is the case of the host's list. -/
theorem stepCarriesOutTheNextTransaction : Obligations.StepCarriesOutTheNextTransaction := fun _ =>
  ⟨fun _ _ _ hp => step_of_pending hp, fun _ _ hp => step_of_pending hp,
    fun _ _ _ _ _ hp => step_of_pending hp, fun hp => step_of_free hp⟩

/-- Settles O6: both the scripted step and the free host's are a cycle, whose fetch reads the two bytes. -/
theorem stepRunsTheDecodedInstruction : Obligations.StepRunsTheDecodedInstruction := by
  intro s hi lo i hfault hblocked hhi hlo hdecode
  obtain rfl : decodeWord (wordOfBytes hi lo) = i := by
    injection hdecode with hpair
    exact congrArg Prod.fst hpair
  refine ⟨fun keys rand rest hp => ?_, fun hp => ?_⟩
  · rw [step_of_pending hp]
    exact State.cycle_of_read (s := { s with pending := rest }) hfault hblocked hhi hlo keys rand
  · have hfree := State.cycle_of_read (s := { s with draws := s.draws + 1 }.tick (Config.hostElapsed s.draws))
      (by rwa [State.tick_fault]) (by rwa [State.tick_blocked])
      (by rwa [State.tick_mem, State.tick_pc]) (by rwa [State.tick_mem, State.tick_pc])
      (Config.hostKeys s.draws) (Config.hostRand s.draws)
    rw [step_of_free hp, State.freeTransact, hfree,
      State.tick_of_running (s := { s with draws := s.draws + 1 }) hfault]
    rfl

/-- Settles O9: the faulted branches of a step and of a tick. -/
theorem faultedBlockIgnoresStepAndTick : Obligations.FaultedBlockIgnoresStepAndTick := fun s hfault =>
  ⟨fun keys rand => ⟨_, State.cycle_of_faulted hfault keys rand, changesOnly_setOut s _, rfl⟩,
    State.tick_of_faulted hfault⟩

/-! ### Steps give a next state -/

theorem State.cycle_next (s : State) (keys : Vector Bool 16) (rand : Byte) :
    ∃ t, s.cycle keys rand = .next t := by
  by_cases hfault : s.fault = .none
  · cases hblocked : s.blocked with
    | some x => exact ⟨_, State.cycle_of_blocked hfault hblocked keys rand⟩
    | none =>
      rw [State.cycle_of_ready hfault hblocked]
      cases hfetch : (s.supply keys rand).fetch with
      | error a => exact ⟨_, State.fetchExec_of_error hfetch⟩
      | ok w =>
        rw [State.fetchExec_of_ok hfetch]
        exact exec_next _ _
  · exact ⟨_, State.cycle_of_faulted hfault keys rand⟩

theorem imageFits_iff {font program : List Byte} {offset : Word} :
    imageFits font program offset = true ↔ font.length = 80 ∧ offset.toNat + program.length ≤ 4096 := by
  simp [imageFits]

theorem State.resetWith_of_fits {font program : List Byte} {offset : Word} {cfg : Config.Settings}
    (hfits : imageFits font program offset = true) (hpos : 0 < cfg.tickInterval) (s : State) :
    s.resetWith font program offset cfg = .next { State.reset with
      mem := loadImage font program offset, cfg := cfg, pending := s.pending, draws := s.draws } := by
  rw [State.resetWith, if_pos hfits, if_neg (Nat.ne_of_gt hpos)]

theorem State.resetWith_of_zero_interval {font program : List Byte} {offset : Word} {cfg : Config.Settings}
    (hfits : imageFits font program offset = true) (hzero : cfg.tickInterval = 0) (s : State) :
    s.resetWith font program offset cfg = .refused .tickIntervalNotPositive := by
  rw [State.resetWith, if_pos hfits, if_pos hzero]

theorem State.resetWith_of_not_fits {font program : List Byte} {offset : Word}
    (hfits : imageFits font program offset = false) (s : State) (cfg : Config.Settings) :
    s.resetWith font program offset cfg = .refused .imageDoesNotFit := by
  rw [State.resetWith, if_neg (by simp [hfits])]

/-- Settles O15: a step, a tick and the free host's transaction give a next state, and a reset is refused for its
image, refused for its interval, or not. -/
theorem stepStopsOnlyOnRefusedReset : Obligations.StepStopsOnlyOnRefusedReset := by
  intro s
  cases hp : s.pending with
  | nil =>
    rw [step_of_free hp]
    exact .inl (State.cycle_next _ _ _)
  | cons tr rest =>
    rw [step_of_pending hp]
    cases tr with
    | step keys rand => exact .inl (State.cycle_next _ keys rand)
    | tick e => exact .inl ⟨_, rfl⟩
    | reset font program offset cfg =>
      cases hfits : imageFits font program offset with
      | false =>
        exact .inr ⟨font, program, offset, cfg, rest, rfl,
          .inl ⟨hfits, State.resetWith_of_not_fits hfits _ cfg⟩⟩
      | true =>
        rcases Nat.eq_zero_or_pos cfg.tickInterval with hzero | hpos
        · exact .inr ⟨font, program, offset, cfg, rest, rfl,
            .inr ⟨hzero, State.resetWith_of_zero_interval hfits hzero _⟩⟩
        · exact .inl ⟨_, State.resetWith_of_fits hfits hpos _⟩

end Sys2Proof.Machine

/-! ## Reset (spec/10_state.md R31, spec/70_reset_and_hazards.md R230 to R232) -/

namespace Sys2Proof.Machine

open Sys2Proof

/-- Settles O50: the two conditions are the negation of the check, and every other reset answers otherwise. -/
theorem resetRefusesAnImageThatDoesNotFit : Obligations.ResetRefusesAnImageThatDoesNotFit := by
  intro s font program offset cfg
  cases hfits : imageFits font program offset with
  | false =>
    have hnot : ¬(font.length = 80 ∧ offset.toNat + program.length ≤ 4096) := by
      rw [← imageFits_iff, hfits]
      exact Bool.false_ne_true
    exact iff_of_true (by omega) (State.resetWith_of_not_fits hfits s cfg)
  | true =>
    obtain ⟨hfont, hprogram⟩ := imageFits_iff.1 hfits
    refine iff_of_false (by omega) fun hrefused => ?_
    rcases Nat.eq_zero_or_pos cfg.tickInterval with hzero | hpos
    · rw [State.resetWith_of_zero_interval hfits hzero] at hrefused
      cases hrefused
    · rw [State.resetWith_of_fits hfits hpos] at hrefused
      cases hrefused

/-- Past the default font the reset contents are 0. -/
theorem Memory.unlisted_of_ge {a : Nat} (h : 80 ≤ a) : Memory.unlisted a = 0 :=
  List.getD_eq_default _ _ (by exact h)

/-- What a loaded image reads as: the program over the font over zeros. -/
theorem loadImage_get {font program : List Byte} {offset : Word} (hfont : font.length = 80) (a : Nat) :
    (loadImage font program offset).get a =
      if offset.toNat ≤ a ∧ a < offset.toNat + program.length then program.getD (a - offset.toNat) 0
      else font.getD a 0 := by
  rw [loadImage, Memory.get_store, Memory.get_store]
  refine if_congr Iff.rfl rfl ?_
  by_cases ha : a < 80
  · rw [if_pos (by simp [hfont, ha])]
    rfl
  · rw [if_neg (by simp [hfont, ha]), List.getD_eq_default _ _ (by omega)]
    exact Memory.unlisted_of_ge (Nat.le_of_not_lt ha)

/-- Settles O49: the image is the program over the font over zeros, and the rest is the reset state. -/
theorem resetLoadsFontThenProgram : Obligations.ResetLoadsFontThenProgram := by
  intro s font program offset cfg hfont hprogram hpos
  refine ⟨_, State.resetWith_of_fits (imageFits_iff.2 ⟨hfont, hprogram⟩) hpos s, fun a ha => ?_, rfl, rfl,
    fun it hit => ?_⟩
  · rw [Memory.read_of_lt _ ha, loadImage_get hfont]
  · cases it with
    | mem => exact absurd rfl hit
    | _ => rfl

/-- Settles O48: unlisted memory is the font and zeros; the rest is written out in the reset state. -/
theorem resetStateIsAsListed : Obligations.ResetStateIsAsListed := by
  refine ⟨fun a => ?_, rfl, fun r => ?_, rfl, rfl, rfl, rfl, rfl, Framebuffer.cell_clear, fun k => ?_, rfl, rfl,
    rfl, rfl, rfl⟩
  · by_cases hfont : a < 80
    · rw [if_pos hfont, Memory.read_of_lt _ (by omega)]
      rfl
    · by_cases hmem : a < 4096
      · rw [if_neg hfont, if_pos hmem, Memory.read_of_lt _ hmem]
        exact congrArg some (Memory.unlisted_of_ge (Nat.le_of_not_lt hfont))
      · rw [if_neg hfont, if_neg hmem, Memory.read_of_ge _ (Nat.le_of_not_lt hmem)]
  · exact Vector.getElem_replicate _
  · exact Vector.getElem_replicate _

end Sys2Proof.Machine

/-! ## Outputs (spec/10_state.md R24, R26, R27) -/

namespace Sys2Proof.Machine

open Sys2Proof

/-- The read-out is the rows one after the other. -/
theorem State.fbFlat_eq (s : State) : s.fbFlat = s.fb.flatten.toList := by
  simp only [State.fbFlat, List.flatMap, Vector.flatten, Vector.toList, Array.toList_flatten, Array.toList_map,
    List.map_map]
  rfl

/-- Settles O56: element `r*64 + c` of the rows one after the other is column `c` of row `r`. -/
theorem framebufferReadsOutRowMajor : Obligations.FramebufferReadsOutRowMajor := by
  intro s
  rw [State.fbFlat_eq]
  refine ⟨Vector.length_toList, fun c r hc hr => ?_⟩
  have hrow : (r * 64 + c) / 64 = r := by omega
  have hcol : (r * 64 + c) % 64 = c := by omega
  have hlt : r * 64 + c < 32 * 64 := by omega
  rw [Vector.getElem?_toList, Vector.getElem?_eq_getElem hlt, Vector.getElem_flatten hlt,
    Framebuffer.cell_eq _ hc hr]
  simp only [hrow, hcol]

theorem State.blockedCode_of_none {s : State} (h : s.blocked = none) : s.blockedCode = 0x10 := by
  simp [State.blockedCode, h]

/-- The code of an awaited register is its index, below `NO_BLOCK`. -/
theorem State.blockedCode_toNat_of_some {s : State} {x : Nibble} (h : s.blocked = some x) :
    s.blockedCode.toNat = x.toNat := by
  have hx := x.isLt
  simp only [State.blockedCode, h, BitVec.toNat_setWidth]
  omega

theorem State.faultCode_eq (s : State) :
    s.faultCode = if s.fault = .none then 0 else if s.fault = .stackUnderflow then 1 else 2 := by
  cases h : s.fault <;> simp [State.faultCode, h]

/-- Settles O57: each latch value has its own code, and a register's index is below `NO_BLOCK`. -/
theorem latchCodesAreAsListed : Obligations.LatchCodesAreAsListed := by
  intro s
  have hfault : (s.faultCode = 0 ↔ s.fault = .none) ∧ (s.faultCode = 1 ↔ s.fault = .stackUnderflow) ∧
      (s.faultCode = 2 ↔ s.fault = .outOfBounds) ∧ s.faultCode ≤ 2 := by
    rw [State.faultCode_eq]
    cases s.fault <;> simp
  obtain ⟨hnone, hunderflow, hbounds, hle⟩ := hfault
  refine ⟨hnone, hunderflow, hbounds, hle, ?_⟩
  cases h : s.blocked with
  | none =>
    rw [State.blockedCode_of_none h]
    refine ⟨by simp, fun x => ?_, by decide⟩
    have hx := x.isLt
    exact iff_of_false (by simp; omega) (by simp)
  | some y =>
    have hy := y.isLt
    have hcode := State.blockedCode_toNat_of_some h
    refine ⟨iff_of_false (fun he => ?_) (by simp), fun x => ?_, by omega⟩
    · have h16 : s.blockedCode.toNat = 16 := by rw [he]; rfl
      omega
    · rw [hcode, Option.some.injEq]
      exact BitVec.toNat_inj

end Sys2Proof.Machine

/-! ## The timers (spec/40_cycle_engine.md R93, R94, R96) -/

namespace Sys2Proof.Machine

open Sys2Proof

theorem changesOnly_tick (s : State) (e : Nat) : ChangesOnly [.dt, .st, .acc] s (s.tick e) :=
  ⟨fun it h => by cases it <;> simp_all [Keeps], by simp, by simp, by simp, by simp⟩

/-! ### The loop of whole intervals -/

theorem decrement_eq_countDown (b : Byte) : (if 0 < b.toNat then b - 1 else b) = countDown b 1 := by
  have hb := b.isLt
  apply BitVec.eq_of_toNat_eq
  split
  · rw [BitVec.toNat_sub, countDown_toNat]
    simp only [BitVec.ofNat_eq_ofNat, BitVec.toNat_ofNat]
    omega
  · rw [countDown_toNat]
    omega

theorem State.tickOnce_eq (s : State) : s.tickOnce = { s with
    dt := countDown s.dt 1, st := countDown s.st 1, acc := s.acc - s.cfg.tickInterval } := by
  rw [State.tickOnce, decrement_eq_countDown, decrement_eq_countDown]

/-- What the loop has done once the accumulator holds no whole interval: nothing. -/
theorem State.countDown_eq_self_of_lt {s : State} (h : s.acc < s.cfg.tickInterval) :
    { s with
      dt := countDown s.dt (s.acc / s.cfg.tickInterval)
      st := countDown s.st (s.acc / s.cfg.tickInterval)
      acc := s.acc % s.cfg.tickInterval } = s := by
  rw [Nat.div_eq_of_lt h, Nat.mod_eq_of_lt h, countDown_zero, countDown_zero]

/-- With fuel for every quantum in the accumulator the loop takes all its whole intervals. -/
theorem State.tickLoop_eq {fuel : Nat} {s : State} (hpos : 0 < s.cfg.tickInterval) (hfuel : s.acc ≤ fuel) :
    State.tickLoop fuel s = { s with
      dt := countDown s.dt (s.acc / s.cfg.tickInterval)
      st := countDown s.st (s.acc / s.cfg.tickInterval)
      acc := s.acc % s.cfg.tickInterval } := by
  induction fuel generalizing s with
  | zero => exact (State.countDown_eq_self_of_lt (s := s) (Nat.lt_of_le_of_lt hfuel hpos)).symm
  | succ fuel ih =>
    rw [State.tickLoop]
    split
    case isTrue hge =>
      have hless : s.acc - s.cfg.tickInterval ≤ fuel := by omega
      rw [ih (s := s.tickOnce) hpos hless, State.tickOnce_eq]
      simp only [countDown_countDown, Nat.mod_eq_sub_mod hge, Nat.div_eq_sub_div hpos hge, Nat.add_comm 1]
    case isFalse hlt => exact (State.countDown_eq_self_of_lt (Nat.lt_of_not_le hlt)).symm

/-- Settles O40: the elapsed time itself is fuel enough. -/
theorem tickIsTheLoopOfWholeIntervals : Obligations.TickIsTheLoopOfWholeIntervals := fun s e hfault hpos =>
  (State.tick_eq hfault e).trans (State.tickLoop_eq (s := { s with acc := s.acc + e }) hpos (Nat.le_refl _)).symm

/-! ### Elapsed time adds up -/

/-- The intervals and the remainder of a sum, taken in two parts. -/
theorem div_add_mod_add_div {a b t : Nat} (ht : 0 < t) : a / t + (a % t + b) / t = (a + b) / t := by
  conv_rhs => rw [← Nat.div_add_mod a t, Nat.add_assoc, Nat.mul_add_div ht]

theorem State.tick_tick {s : State} (hpos : 0 < s.cfg.tickInterval) (a b : Nat) :
    (s.tick a).tick b = s.tick (a + b) := by
  by_cases hfault : s.fault = .none
  · rw [State.tick_eq ((s.tick_fault a).trans hfault), State.tick_eq hfault, State.tick_eq hfault]
    simp only [countDown_countDown, div_add_mod_add_div hpos, Nat.mod_add_mod, Nat.add_assoc]
  · simp only [State.tick_of_faulted hfault]

/-- Settles O41: whole intervals and remainders of a sum add up, and a tick writes three items. -/
theorem ticksAddUp : Obligations.TicksAddUp := fun s a b =>
  ⟨fun hpos => s.tick_tick hpos a b, changesOnly_tick s a, s.tick_out a⟩

/-! ### One interval in increments -/

theorem State.tick_of_lt {s : State} (hfault : s.fault = .none) {e : Nat} (h : s.acc + e < s.cfg.tickInterval) :
    s.tick e = { s with acc := s.acc + e } := by
  rw [State.tick_eq hfault, Nat.div_eq_of_lt h, Nat.mod_eq_of_lt h, countDown_zero, countDown_zero]

/-- Increments that stay below an interval only accumulate. -/
theorem foldl_tick_of_lt {s : State} {es : List Nat} (hfault : s.fault = .none)
    (h : s.acc + es.sum < s.cfg.tickInterval) : es.foldl State.tick s = { s with acc := s.acc + es.sum } := by
  induction es generalizing s with
  | nil => rfl
  | cons e es ih =>
    rw [List.sum_cons] at h ⊢
    have hrest : s.acc + e + es.sum < s.cfg.tickInterval := by omega
    rw [List.foldl_cons, State.tick_of_lt hfault (by omega), ih (s := { s with acc := s.acc + e }) hfault hrest]
    simp only [Nat.add_assoc]

/-- Settles O42: before the last increment time only accumulates, and the last one makes exactly one interval. -/
theorem oneIntervalDecrementsEachTimerOnce : Obligations.OneIntervalDecrementsEachTimerOnce := by
  intro s es e hfault hacc hpos he hsum
  have hbefore : es.foldl State.tick s = { s with acc := es.sum } := by
    rw [foldl_tick_of_lt hfault (by omega), hacc, Nat.zero_add]
  have hafter : (es ++ [e]).foldl State.tick s =
      { s with dt := countDown s.dt 1, st := countDown s.st 1, acc := 0 } := by
    rw [List.foldl_append, hbefore, List.foldl_cons, List.foldl_nil,
      State.tick_eq (s := { s with acc := es.sum }) hfault]
    simp only [hsum, Nat.div_self hpos, Nat.mod_self]
  rw [hbefore, hafter]
  exact ⟨rfl, rfl, countDown_toNat _ _, countDown_toNat _ _, rfl⟩

/-! ### Sound -/

theorem State.soundOn_iff (s : State) : s.soundOn = true ↔ 0 < s.st.toNat := decide_eq_true_iff

/-- Settles O39: what is left of `ST` after a tick is positive exactly when fewer intervals have passed. -/
theorem soundFollowsTheSoundTimer : Obligations.SoundFollowsTheSoundTimer := by
  refine fun s => ⟨s.soundOn_iff, fun e hfault _ => ?_⟩
  rw [State.soundOn_iff, State.tick_eq hfault, countDown_toNat]
  exact Nat.sub_pos_iff_lt

end Sys2Proof.Machine

/-! ## Returns, register compares and key skips (spec/41_flow.md R101, R106, R107,
spec/45_keys_timers.md R160 to R162) -/

namespace Sys2Proof.Machine

open Sys2Proof

/-- Settles O18: the two outcomes of a return and their frames. -/
theorem retPopsOrUnderflows : Obligations.RetPopsOrUnderflows := by
  refine ⟨decodesAs_ret, fun s a rest hs => ?_, fun s hs => ?_⟩
  · exact ⟨_, exec_ret_of_cons hs, rfl, rfl, rfl, changesOnly_return s rest a⟩
  · exact ⟨_, exec_ret_of_nil hs, rfl, changesOnly_takeFatal s _ _⟩

/-- Settles O21: both are skips, on equality and on its negation. -/
theorem registerCompareSkips : Obligations.RegisterCompareSkips := by
  refine ⟨decodesAs_seReg, decodesAs_sneReg, fun s x y => ⟨?_, ?_⟩⟩
  · exact ⟨_, exec_seReg x y s, s.skip_pc beq_iff_eq, rfl, changesOnly_skip s _⟩
  · refine ⟨_, exec_sneReg x y s, ?_, rfl, changesOnly_skip s _⟩
    rw [s.skip_pc bne_iff_ne, ite_not]

/-- An index below 16 reads its key, and any other reads as not held (R160). -/
theorem State.keyHeld_eq {s : State} {k : Byte} {held : Bool}
    (hkey : ∀ j : Fin 16, k.toNat = j.val → held = s.keys[j]) (hnone : 16 ≤ k.toNat → held = false) :
    s.keyHeld k = held := by
  unfold State.keyHeld
  split
  case isTrue hlt => exact (hkey ⟨k.toNat, hlt⟩ rfl).symm
  case isFalse hge => exact (hnone (Nat.le_of_not_lt hge)).symm

/-- Settles O35: both are skips, on the level of the key and on its negation. -/
theorem keySkipsFollowTheHeldKeys : Obligations.KeySkipsFollowTheHeldKeys := by
  refine ⟨decodesAs_skp, decodesAs_sknp, fun s x held hkey hnone => ?_⟩
  have hheld : s.keyHeld (s.getV x) = held := State.keyHeld_eq hkey hnone
  refine ⟨⟨_, exec_skp x s, s.skip_pc (by rw [hheld]), rfl, changesOnly_skip s _⟩,
    ⟨_, exec_sknp x s, ?_, rfl, changesOnly_skip s _⟩⟩
  rw [s.skip_pc (p := ¬held = true) (by rw [hheld, Bool.not_eq_true, Bool.not_eq_true']), ite_not]

end Sys2Proof.Machine

/-! ## Arithmetic and shifts with a flag (spec/42_alu.md R128 to R132) -/

namespace Sys2Proof.Machine

open Sys2Proof

/-- The number in each register after a result and then its flag, last (R121). -/
theorem State.getV_result_flag_toNat (s : State) (x r : Nibble) (b : Byte) (f : Bool) :
    (((s.advance.setV x b).setFlag f).getV r).toNat =
      if r = flagReg then f.toNat else if r = x then b.toNat else (s.getV r).toNat := by
  rw [State.getV_setFlag, apply_ite BitVec.toNat, s.apply_getV_advance_setV BitVec.toNat]
  cases f <;> rfl

theorem carryOut_toNat (a b : Byte) : (carryOut a b).toNat = if 255 < a.toNat + b.toNat then 1 else 0 := by
  by_cases h : 255 < a.toNat + b.toNat <;> simp [carryOut, h]

theorem noBorrow_toNat (a b : Byte) : (noBorrow a b).toNat = if b.toNat ≤ a.toNat then 1 else 0 := by
  by_cases h : b.toNat ≤ a.toNat <;> simp [noBorrow, h]

theorem lowBit_toNat (b : Byte) : (lowBit b).toNat = b.toNat % 2 := by
  rw [lowBit, BitVec.getLsbD, Nat.toNat_testBit, Nat.pow_zero, Nat.div_one]

theorem highBit_toNat (b : Byte) : (highBit b).toNat = b.toNat / 128 := by
  have hlt : b.toNat < 256 := b.isLt
  rw [highBit, BitVec.getLsbD, Nat.toNat_testBit]
  omega

theorem sub_toNat (a b : Byte) : (a - b).toNat = (a.toNat + 256 - b.toNat) % 256 := by
  have := b.isLt
  rw [BitVec.toNat_sub]
  omega

theorem shiftRight_one_toNat (b : Byte) : (b >>> 1).toNat = b.toNat / 2 := by
  rw [BitVec.toNat_ushiftRight, Nat.shiftRight_one]

theorem shiftLeft_one_toNat (b : Byte) : (b <<< 1).toNat = b.toNat * 2 % 256 := by
  rw [BitVec.toNat_shiftLeft, Nat.shiftLeft_eq]

/-- Settles O25: the sum modulo 256 and then the carry, as the numbers in the registers. -/
theorem addRegisterSetsCarry : Obligations.AddRegisterSetsCarry := by
  refine ⟨decodesAs_addReg, fun s x y => ⟨_, exec_addReg x y s, fun r => ?_, rfl, rfl,
    changesOnly_advance_setV_setFlag s x _ _⟩⟩
  rw [State.getV_result_flag_toNat, carryOut_toNat, BitVec.toNat_add]

/-- Settles O26: the difference modulo 256 and then the absence of a borrow. -/
theorem subtractSetsNoBorrow : Obligations.SubtractSetsNoBorrow := by
  refine ⟨decodesAs_sub, decodesAs_subn, fun s x y => ⟨?_, ?_⟩⟩
  · refine ⟨_, exec_sub x y s, fun r => ?_, rfl, rfl, changesOnly_advance_setV_setFlag s x _ _⟩
    rw [State.getV_result_flag_toNat, noBorrow_toNat, sub_toNat]
  · refine ⟨_, exec_subn x y s, fun r => ?_, rfl, rfl, changesOnly_advance_setV_setFlag s x _ _⟩
    rw [State.getV_result_flag_toNat, noBorrow_toNat, sub_toNat]

/-- The source of a shift is the register `SHIFT_SRC` names. -/
theorem State.shiftSource_eq {s : State} {x y : Nibble} {src : Byte} (hx : s.cfg.shiftSrc = .x → src = s.getV x)
    (hy : s.cfg.shiftSrc = .y → src = s.getV y) : s.shiftSource x y = src := by
  unfold State.shiftSource
  split
  · exact (hx ‹_›).symm
  · exact (hy ‹_›).symm

/-- Settles O27: the source shifted by one and then the bit shifted out. -/
theorem shiftsMoveOneBitIntoTheFlag : Obligations.ShiftsMoveOneBitIntoTheFlag := by
  refine ⟨decodesAs_shr, decodesAs_shl, fun s x y src hx hy => ?_⟩
  have hsrc : s.shiftSource x y = src := State.shiftSource_eq hx hy
  refine ⟨⟨_, exec_shr x y s, fun r => ?_, rfl, rfl, changesOnly_advance_setV_setFlag s x _ _⟩,
    ⟨_, exec_shl x y s, fun r => ?_, rfl, rfl, changesOnly_advance_setV_setFlag s x _ _⟩⟩
  · rw [State.getV_result_flag_toNat, hsrc, lowBit_toNat, shiftRight_one_toNat]
  · rw [State.getV_result_flag_toNat, hsrc, highBit_toNat, shiftLeft_one_toNat]

end Sys2Proof.Machine

/-! ## The address register added to, and the timers written (spec/43_address.md R141,
spec/45_keys_timers.md R165, R166) -/

namespace Sys2Proof.Machine

open Sys2Proof

/-- Settles O30: the sum modulo 2^16 goes to `I` alone. -/
theorem indexAddWrapsWithoutFlag : Obligations.IndexAddWrapsWithoutFlag := by
  refine ⟨decodesAs_addI, fun s x => ⟨_, exec_addI x s, ?_, rfl, rfl, changesOnly_advance_setI s _⟩⟩
  exact (BitVec.toNat_add s.i _).trans (congrArg (fun b => (s.i.toNat + b) % 65536) (zextByte_toNat _))

/-- Settles O38: each writes its timer alone, and `sound_on` reads `ST`. -/
theorem timerWritesLeaveTheAccumulator : Obligations.TimerWritesLeaveTheAccumulator := by
  refine ⟨decodesAs_ldDt, decodesAs_ldSt, fun s x => ⟨?_, ?_⟩⟩
  · exact ⟨_, exec_ldDt x s, rfl, rfl, rfl, rfl, changesOnly_advance_setDt s _⟩
  · exact ⟨_, exec_ldSt x s, rfl, rfl, State.soundOn_iff _, rfl, rfl, changesOnly_advance_setSt s _⟩

end Sys2Proof.Machine

/-! ## Clearing and drawing (spec/44_display.md R151 to R154) -/

namespace Sys2Proof.Machine

open Sys2Proof

/-- Settles O32: the cleared framebuffer has no cell on. -/
theorem clsClearsEveryCell : Obligations.ClsClearsEveryCell :=
  ⟨decodesAs_cls, fun s => ⟨_, exec_cls s, Framebuffer.cell_clear, rfl, rfl, changesOnly_advance_setFb s _⟩⟩

/-! ### What a draw leaves -/

/-- The points of the sprite a `DRW` draws. -/
def drawnPoints (x y n : Nibble) (s : State) : List (Nat × Nat) :=
  spritePoints ((s.getV x).toNat % 64) ((s.getV y).toNat % 32) (s.mem.slice s.base n.toNat)

/-- A `DRW` whose sprite lies inside memory. -/
theorem exec_drw_inside {s : State} {x y n : Nibble} (h : n.toNat = 0 ∨ s.base + n.toNat ≤ 4096) :
    exec (.drw x y n) s = .next ({ s.advance with fb := (blit s.fb (drawnPoints x y n s)).1 }.setFlag
      (blit s.fb (drawnPoints x y n s)).2).markDirty :=
  exec_drw_of_inside (h.imp_left BitVec.eq_of_toNat_eq)

theorem exec_drw_outside {s : State} {x y n : Nibble} (hn : 1 ≤ n.toNat) (h : 4096 ≤ s.base + n.toNat - 1) :
    exec (.drw x y n) s = .next (s.raiseOutOfBounds (max s.base 4096)) :=
  exec_drw_of_outside (by rintro rfl; simp at hn) (by omega)

/-- A sprite has at most 15 rows, so the blit flips no cell twice. -/
theorem drawnPoints_pairwise (x y n : Nibble) (s : State) :
    (drawnPoints x y n s).Pairwise fun p q => ¬SameCell p q := by
  have hn := n.isLt
  exact spritePoints_pairwise _ _ _ (by rw [Memory.length_slice]; omega)

/-- A covered cell lies inside the framebuffer. -/
theorem SpriteCovers.lt {s : State} {x y n : Nibble} {c r : Nat} (h : SpriteCovers s x y n c r) :
    c < 64 ∧ r < 32 := by
  obtain ⟨k, j, b, -, -, -, -, rfl, rfl⟩ := h
  exact ⟨Nat.mod_lt _ (by decide), Nat.mod_lt _ (by decide)⟩

theorem cell_of_sameCell {fb : Framebuffer} {p q : Nat × Nat} (h : SameCell p q) :
    fb.cell p.1 p.2 = fb.cell q.1 q.2 := by
  obtain ⟨hc, hr⟩ := h
  simp [Framebuffer.cell, hc, hr]

theorem blit_cell_of_covers {s : State} {x y n : Nibble} (h : n.toNat = 0 ∨ s.base + n.toNat ≤ 4096) {c r : Nat}
    (hcovers : SpriteCovers s x y n c r) :
    (blit s.fb (drawnPoints x y n s)).1.cell c r = !s.fb.cell c r := by
  obtain ⟨hc, hr⟩ := hcovers.lt
  have hcells := (blit_spec _ (drawnPoints_pairwise x y n s) (s.fb, false)).1
  exact (hcells (c, r)).1 ((spriteCovers_iff h hc hr).1 hcovers)

theorem blit_cell_of_not_covers {s : State} {x y n : Nibble} (h : n.toNat = 0 ∨ s.base + n.toNat ≤ 4096)
    {c r : Nat} (hc : c < 64) (hr : r < 32) (hcovers : ¬SpriteCovers s x y n c r) :
    (blit s.fb (drawnPoints x y n s)).1.cell c r = s.fb.cell c r := by
  have hcells := (blit_spec _ (drawnPoints_pairwise x y n s) (s.fb, false)).1
  exact (hcells (c, r)).2 fun hpoint => hcovers ((spriteCovers_iff h hc hr).2 hpoint)

/-- The blit records a hit exactly when a covered cell was on. -/
theorem blit_hit_iff {s : State} {x y n : Nibble} (h : n.toNat = 0 ∨ s.base + n.toNat ≤ 4096) :
    (blit s.fb (drawnPoints x y n s)).2 = true ↔ ∃ c r, SpriteCovers s x y n c r ∧ s.fb.cell c r = true := by
  have hhit := (blit_spec _ (drawnPoints_pairwise x y n s) (s.fb, false)).2
  refine hhit.trans ⟨fun hon => ?_, fun ⟨c, r, hcovers, hon⟩ => .inr ?_⟩
  · obtain hfalse | ⟨p, hp, hon⟩ := hon
    · cases hfalse
    · have hsame : SameCell (p.1 % 64, p.2 % 32) p := ⟨Nat.mod_mod _ _, Nat.mod_mod _ _⟩
      refine ⟨p.1 % 64, p.2 % 32, ?_, (cell_of_sameCell hsame).trans hon⟩
      exact (spriteCovers_iff h (Nat.mod_lt _ (by decide)) (Nat.mod_lt _ (by decide))).2 ⟨p, hp, hsame⟩
  · obtain ⟨hc, hr⟩ := hcovers.lt
    obtain ⟨p, hp, hsame⟩ := (spriteCovers_iff h hc hr).1 hcovers
    exact ⟨p, hp, (cell_of_sameCell hsame).symm.trans hon⟩

theorem State.getV_drawn (s : State) (fb : Framebuffer) (f : Bool) (r : Nibble) :
    ({ s.advance with fb := fb }.setFlag f).markDirty.getV r =
      if r = flagReg then (if f then 1 else 0) else s.getV r :=
  State.getV_setFlag _ r f

/-- Settles O33: the blit's cells and hit are those of the sprite, and a draw out of bounds takes its condition. -/
theorem drwXorsTheSprite : Obligations.DrwXorsTheSprite := by
  refine ⟨decodesAs_drw, fun s x y n hin => ?_, fun s x y n hn hout => ?_⟩
  · refine ⟨_, exec_drw_inside hin,
      fun c r hc hr => ⟨blit_cell_of_covers hin, blit_cell_of_not_covers hin hc hr⟩,
      fun hon => ?_, fun hoff => ?_, fun r hr => ?_, rfl, rfl, changesOnly_drawn s _ _⟩
    · rw [State.getV_drawn, if_pos rfl, if_pos ((blit_hit_iff hin).2 hon)]
    · rw [State.getV_drawn, if_pos rfl, if_neg (mt (blit_hit_iff hin).1 hoff)]
    · rw [State.getV_drawn, if_neg hr]
  · exact ⟨_, exec_drw_outside hn hout, rfl, rfl, changesOnly_takeFatal s _ _⟩

/-! ### Drawing twice -/

/-- The cells under a sprite depend on memory, `I` and the two registers alone. -/
theorem spriteCovers_congr {s t : State} {x y : Nibble} (hmem : t.mem = s.mem) (hi : t.i = s.i)
    (hx : t.getV x = s.getV x) (hy : t.getV y = s.getV y) (n : Nibble) (c r : Nat) :
    SpriteCovers t x y n c r ↔ SpriteCovers s x y n c r := by
  simp only [SpriteCovers, State.base, hmem, hi, hx, hy]

/-- The flag of a draw. -/
theorem getV_flagReg_drawn_iff {s : State} {x y n : Nibble} (h : n.toNat = 0 ∨ s.base + n.toNat ≤ 4096) :
    ({ s.advance with fb := (blit s.fb (drawnPoints x y n s)).1 }.setFlag
      (blit s.fb (drawnPoints x y n s)).2).markDirty.getV flagReg = 1 ↔
    ∃ c r, SpriteCovers s x y n c r ∧ s.fb.cell c r = true := by
  rw [State.getV_drawn, if_pos rfl, ← blit_hit_iff h]
  cases (blit s.fb (drawnPoints x y n s)).2 <;> simp

/-- Settles O34: both draws toggle the same cells, and each flag says what its own draw found on them. -/
theorem drawingTwiceRestoresTheFramebuffer : Obligations.DrawingTwiceRestoresTheFramebuffer := by
  intro s t x y n hin hfirst hx hy
  rw [exec_drw_inside hin] at hfirst
  injection hfirst with ht
  have hmem : t.mem = s.mem := ht ▸ rfl
  have hi : t.i = s.i := ht ▸ rfl
  have hfb : t.fb = (blit s.fb (drawnPoints x y n s)).1 := ht ▸ rfl
  have hcovers := spriteCovers_congr hmem hi hx hy n
  have hin' : n.toNat = 0 ∨ t.base + n.toNat ≤ 4096 := by rwa [State.base, hi]
  refine ⟨_, exec_drw_inside hin', Framebuffer.ext_cell fun c r hc hr => ?_,
    ht ▸ getV_flagReg_drawn_iff hin, ?_⟩
  · by_cases hcov : SpriteCovers s x y n c r
    · calc (blit t.fb (drawnPoints x y n t)).1.cell c r = !t.fb.cell c r :=
            blit_cell_of_covers hin' ((hcovers c r).2 hcov)
        _ = s.fb.cell c r := by rw [hfb, blit_cell_of_covers hin hcov, Bool.not_not]
    · calc (blit t.fb (drawnPoints x y n t)).1.cell c r = t.fb.cell c r :=
            blit_cell_of_not_covers hin' hc hr (mt (hcovers c r).1 hcov)
        _ = s.fb.cell c r := by rw [hfb, blit_cell_of_not_covers hin hc hr hcov]
  · rw [getV_flagReg_drawn_iff hin']
    refine exists_congr fun c => exists_congr fun r => ?_
    rw [hcovers c r]
    refine and_congr_right fun hcov => ?_
    rw [hfb, blit_cell_of_covers hin hcov, Bool.not_eq_true']

end Sys2Proof.Machine

/-! ## Memory transfer (spec/46_memory_transfer.md R180 to R183, spec/20_memory.md R53) -/

namespace Sys2Proof.Machine

open Sys2Proof

/-- A store leaves every byte outside its range. -/
theorem Memory.read_store_outside (m : Memory) {base a : Nat} {bs : List Byte}
    (h : a < base ∨ base + bs.length ≤ a) : (m.store base bs).read a = m.read a :=
  Memory.read_congr (by rw [Memory.get_store, if_neg (by omega)])

/-- A store is read back inside its range. -/
theorem Memory.read_store_inside (m : Memory) {base k : Nat} {bs : List Byte} (hk : k < bs.length)
    (hin : base + bs.length ≤ 4096) : (m.store base bs).read (base + k) = some bs[k] := by
  rw [Memory.read_of_lt _ (by omega), Memory.get_store, if_pos (by omega), Nat.add_sub_cancel_left,
    List.getD_eq_getElem _ _ hk]

/-- Settles O43: the three digits are stored in order, or the range leaves memory. -/
theorem decimalDigitsAreStored : Obligations.DecimalDigitsAreStored := by
  refine ⟨decodesAs_ldB, fun s x hin => ?_, fun s x hout => ?_⟩
  · have hdigit : ∀ k (hk : k < 3), (s.mem.store s.base (digits (s.getV x))).read (s.base + k) =
        some ((digits (s.getV x))[k]'hk) := fun k hk => s.mem.read_store_inside hk hin
    refine ⟨_, exec_ldB_of_inside hin, hdigit 0 (by decide), hdigit 1 (by decide), hdigit 2 (by decide),
      fun a ha => ?_, rfl, rfl, changesOnly_advance_setMem s _⟩
    exact s.mem.read_store_outside (ha.imp_right id)
  · exact ⟨_, exec_ldB_of_outside (Nat.lt_succ_of_le hout), rfl, rfl, changesOnly_takeFatal s _ _⟩

/-- Settles O44: the registers are stored in order and `I` is advanced, or the range leaves memory. -/
theorem registersAreStoredAtTheIndex : Obligations.RegistersAreStoredAtTheIndex := by
  refine ⟨decodesAs_stRegs, fun s x hin => ?_, fun s x hout => ?_⟩
  · refine ⟨_, exec_stRegs_of_inside hin, fun k hk => State.read_store_regBytes hk hin, fun a ha => ?_,
      State.indexAfter_toNat hin, rfl, rfl, changesOnly_advance_setMem_setI s _ _⟩
    exact s.mem.read_store_outside (by rw [State.length_regBytes]; omega)
  · exact ⟨_, exec_stRegs_of_outside (Nat.lt_succ_of_le hout), rfl, rfl, changesOnly_takeFatal s _ _⟩

/-- A loaded register. -/
theorem State.getV_loadedRegs_of_le {s t : State} {x k : Nibble} (ht : t.v = s.loadedRegs x)
    (h : k.toNat ≤ x.toNat) : t.getV k = s.mem.get (s.base + k.toNat) := by
  have hk : k.toNat < 16 := k.isLt
  simp only [State.getV, ht]
  rw [State.getElem_loadedRegs s x k.toNat hk, if_pos h]

/-- Settles O45: the registers up to `V[x]` are the bytes from `I` on, or the range leaves memory. -/
theorem registersAreLoadedFromTheIndex : Obligations.RegistersAreLoadedFromTheIndex := by
  refine ⟨decodesAs_ldRegs, fun s x hin => ?_, fun s x hout => ?_⟩
  · refine ⟨_, exec_ldRegs_of_inside hin, fun k hk => ?_, fun k => State.getV_loadedRegs_of_lt rfl,
      State.indexAfter_toNat hin, rfl, rfl, changesOnly_advance_setRegs_setI s _ _⟩
    rw [Memory.read_of_lt _ (by omega)]
    exact congrArg some (State.getV_loadedRegs_of_le rfl hk).symm
  · exact ⟨_, exec_ldRegs_of_outside (Nat.lt_succ_of_le hout), rfl, rfl, changesOnly_takeFatal s _ _⟩

/-! ### Stores over the next instruction -/

/-- An advance from below 4093 does not wrap. -/
theorem pc_add_two_toNat {p : Word} (h : p.toNat + 3 < 4096) : (p + 2).toNat = p.toNat + 2 := by
  rw [BitVec.toNat_add]
  exact Nat.mod_eq_of_lt (by simp; omega)

/-- After a store the next fetch gives the two stored or old bytes behind the storing instruction. -/
theorem State.fetch_of_stored {s t : State} {bs : List Byte} {f : Nat → Byte} (hpc : s.pc.toNat + 3 < 4096)
    (htpc : t.pc = s.pc + 2) (htmem : t.mem = s.mem.store s.base bs)
    (hf : ∀ k (h : k < bs.length), bs[k] = f k) :
    ∃ w hi lo, t.fetch = .ok w ∧ w.toNat = BitVec.toNat hi * 256 + BitVec.toNat lo ∧
      StoredByte s.mem s.base bs.length f (s.pc.toNat + 2) hi ∧
      StoredByte s.mem s.base bs.length f (s.pc.toNat + 3) lo := by
  have hnext : t.pc.toNat = s.pc.toNat + 2 := by rw [htpc, pc_add_two_toNat hpc]
  refine ⟨_, _, _, State.fetch_of_lt (by omega), wordOfBytes_toNat _ _, ?_, ?_⟩
  · rw [hnext, htmem]
    exact storedByte_store s.mem s.base hf (by omega)
  · rw [hnext, htmem]
    exact storedByte_store s.mem s.base hf (by omega)

/-- The stored registers by their position. -/
theorem State.getElem_regBytes_eq_getV {s : State} {x : Nibble} {k : Nat} (h : k < (s.regBytes x).length) :
    (s.regBytes x)[k] = s.getV (BitVec.ofNat 4 k) := by
  have hx := x.isLt
  have hk : (BitVec.ofNat 4 k).toNat = k := Nat.mod_eq_of_lt (by rw [State.length_regBytes] at h; omega)
  rw [State.getElem_regBytes]
  simp only [State.getV, hk]

/-- The digits by their position. -/
theorem getElem_digits (b : Byte) {k : Nat} (h : k < (digits b).length) :
    (digits b)[k] = BitVec.ofNat 8 (b.toNat / 10 ^ (2 - k) % 10) := by
  have hb := b.isLt
  have hhundreds : b.toNat / 100 % 10 = b.toNat / 100 := Nat.mod_eq_of_lt (by omega)
  match k, h with
  | 0, _ => simp [digits, hhundreds]
  | 1, _ => simp [digits]
  | 2, _ => simp [digits]

/-- Settles O46: both instructions advance `PC` by 2 and store, so the next fetch reads stored or old bytes. -/
theorem storesAreSeenByTheNextFetch : Obligations.StoresAreSeenByTheNextFetch := by
  intro s x hpc
  constructor
  · intro hin
    have hfetch := State.fetch_of_stored (s := s) (bs := s.regBytes x)
      (t := { s.advance with mem := s.mem.store s.base (s.regBytes x), i := s.indexAfter x }) hpc rfl rfl
      fun k hk => State.getElem_regBytes_eq_getV hk
    rw [State.length_regBytes] at hfetch
    obtain ⟨w, hi, lo, hfetch⟩ := hfetch
    exact ⟨_, w, hi, lo, exec_stRegs_of_inside hin, hfetch⟩
  · intro hin
    obtain ⟨w, hi, lo, hfetch⟩ := State.fetch_of_stored (s := s) (bs := digits (s.getV x))
      (t := { s.advance with mem := s.mem.store s.base (digits (s.getV x)) }) hpc rfl rfl
      fun k hk => getElem_digits (s.getV x) hk
    exact ⟨_, w, hi, lo, exec_ldB_of_inside hin, hfetch⟩

end Sys2Proof.Machine

/-! ## Waiting for a key (spec/45_keys_timers.md R163) -/

namespace Sys2Proof.Machine

open Sys2Proof

/-- What a tick does to the timers depends on `FAULT`, the timers, the accumulator and the interval alone. -/
theorem State.tick_congr {s t : State} (hfault : t.fault = s.fault) (hdt : t.dt = s.dt) (hst : t.st = s.st)
    (hacc : t.acc = s.acc) (hcfg : t.cfg = s.cfg) (e : Nat) :
    (t.tick e).dt = (s.tick e).dt ∧ (t.tick e).st = (s.tick e).st ∧ (t.tick e).acc = (s.tick e).acc := by
  by_cases h : s.fault = .none
  · rw [State.tick_of_running h, State.tick_of_running (hfault.trans h)]
    simp only [hdt, hst, hacc, hcfg, and_self]
  · rw [State.tick_of_faulted h, State.tick_of_faulted (by rwa [hfault])]
    exact ⟨hdt, hst, hacc⟩

/-- Settles O36: the block is entered without a look at the keys, a blocked step is the key-block phase, and once a
key is latched nothing keeps the next step from fetching. -/
theorem waitForKeyBlocksUntilAKeyIsHeld : Obligations.WaitForKeyBlocksUntilAKeyIsHeld := by
  refine ⟨decodesAs_ldVxK, fun s x => ?_⟩
  refine ⟨_, exec_ldVxK x s, rfl, rfl, rfl, changesOnly_advance_setBlocked s _, fun e => ?_,
    fun hfault keys rand => ?_⟩
  · have htimers := State.tick_congr (s := s) (t := { s.advance with blocked := some x }) rfl rfl rfl rfl rfl e
    exact ⟨State.tick_blocked _ e, htimers⟩
  · obtain ⟨u, hcycle, hquiet, hnone, hleast⟩ :=
      keyBlockLatchesTheLeastHeldKey { s.advance with blocked := some x } x keys rand hfault rfl
    refine ⟨u, hcycle, hquiet, hnone, fun k hk hbelow => ?_⟩
    obtain ⟨hregs, hunblocked, hframe⟩ := hleast k hk hbelow
    obtain ⟨hitems, -⟩ := id hframe
    have hpc : u.pc = s.pc + 2 := hitems .pc (by simp)
    have hrunning : u.fault = .none := (hitems .fault (by simp)).trans hfault
    have hmem : ∀ a, u.mem.read a = s.mem.read a := hitems .mem (by simp)
    refine ⟨(hregs x).trans (if_pos rfl), fun r hr => (hregs r).trans (if_neg hr), hunblocked, hpc, hframe,
      fun hi lo keys' rand' hhi hlo => ?_⟩
    exact State.cycle_of_read hrunning hunblocked (by rwa [hmem, hpc]) (by rwa [hmem, hpc]) keys' rand'

end Sys2Proof.Machine
